-- ==== Sys2Proof/Word.lean ====
section
/-! DEFINITION. The word types of the CHIP-8 CORE (spec 00 R6, R7; 10 R21 to R26). -/

namespace Sys2Proof

/-- One byte: a V register, a timer, a memory cell, an immediate `kk` (10 R21, 20 R50, 30 R71). -/
abbrev Byte := BitVec 8

/-- Sixteen bits: an instruction word, `I`, `pc`, a stack slot (10 R23, R24, R26; 30 R70). -/
abbrev Word := BitVec 16

/-- A 12-bit immediate address `nnn` (30 R71). -/
abbrev Addr := BitVec 12

/-- A 4-bit field of an instruction word (30 R71). -/
abbrev Nibble := BitVec 4

/-- A register number: the fields `x` and `y` (10 R21). Every value names a register. -/
abbrev Reg := Fin 16

end Sys2Proof
end

