-- ==== Sys2Proof/Syntax.lean ====
section
/-! DEFINITION. The 34 instructions of spec 30 R75, in the order of the opcode map: one constructor per row of
spec/opcode_table.json, named after the row. Operands are the fields of 30 R71. -/

namespace Sys2Proof

/-- An instruction (30 R75). `shrVx` and `shlVx` keep the field `y` that the word carries and the machine ignores
(30 R81), so that no bit of a word is lost. -/
inductive Instr where
  /-- 00E0 -/
  | cls
  /-- 00EE -/
  | ret
  /-- 1nnn -/
  | jpNnn (nnn : Addr)
  /-- 2nnn -/
  | callNnn (nnn : Addr)
  /-- 3xkk -/
  | seVxKk (x : Reg) (kk : Byte)
  /-- 4xkk -/
  | sneVxKk (x : Reg) (kk : Byte)
  /-- 5xy0 -/
  | seVxVy (x y : Reg)
  /-- 6xkk -/
  | ldVxKk (x : Reg) (kk : Byte)
  /-- 7xkk -/
  | addVxKk (x : Reg) (kk : Byte)
  /-- 8xy0 -/
  | ldVxVy (x y : Reg)
  /-- 8xy1 -/
  | orVxVy (x y : Reg)
  /-- 8xy2 -/
  | andVxVy (x y : Reg)
  /-- 8xy3 -/
  | xorVxVy (x y : Reg)
  /-- 8xy4 -/
  | addVxVy (x y : Reg)
  /-- 8xy5 -/
  | subVxVy (x y : Reg)
  /-- 8xy6 -/
  | shrVx (x y : Reg)
  /-- 8xy7 -/
  | subnVxVy (x y : Reg)
  /-- 8xyE -/
  | shlVx (x y : Reg)
  /-- 9xy0 -/
  | sneVxVy (x y : Reg)
  /-- Annn -/
  | ldINnn (nnn : Addr)
  /-- Bnnn -/
  | jpV0Nnn (nnn : Addr)
  /-- Cxkk -/
  | rndVxKk (x : Reg) (kk : Byte)
  /-- Dxyn -/
  | drwVxVyN (x y : Reg) (n : Nibble)
  /-- Ex9E -/
  | skpVx (x : Reg)
  /-- ExA1 -/
  | sknpVx (x : Reg)
  /-- Fx07 -/
  | ldVxDt (x : Reg)
  /-- Fx0A -/
  | ldVxK (x : Reg)
  /-- Fx15 -/
  | ldDtVx (x : Reg)
  /-- Fx18 -/
  | ldStVx (x : Reg)
  /-- Fx1E -/
  | addIVx (x : Reg)
  /-- Fx29 -/
  | ldFVx (x : Reg)
  /-- Fx33 -/
  | ldBVx (x : Reg)
  /-- Fx55 -/
  | ldMemIVx (x : Reg)
  /-- Fx65 -/
  | ldVxMemI (x : Reg)
  deriving DecidableEq, Repr

end Sys2Proof
end

