-- ==== Sys2Proof/Decode.lean ====
section
/-! DEFINITION. The instruction decoder and its encoder (spec 30 R70 to R76, R81). -/

namespace Sys2Proof

/-- Why bytes are not an instruction. -/
inductive DecodeError where
  /-- fewer than two bytes: an instruction is always two (30 R70) -/
  | truncated
  /-- the word matches no row of 30 R75 (30 R76) -/
  | unrecognized (op : Word)
  deriving DecidableEq, Repr

/-! ### Fields (30 R71) -/

/-- `g`, the op group: op[15:12]. -/
def opGroup (op : Word) : Nibble := op.extractLsb' 12 4
/-- op[11:8]. -/
def opX (op : Word) : Nibble := op.extractLsb' 8 4
/-- op[7:4]. -/
def opY (op : Word) : Nibble := op.extractLsb' 4 4
/-- op[3:0]. -/
def opN (op : Word) : Nibble := op.extractLsb' 0 4
/-- op[7:0]. -/
def opKk (op : Word) : Byte := op.extractLsb' 0 8
/-- op[11:0]. -/
def opNnn (op : Word) : Addr := op.extractLsb' 0 12

/-- A 4-bit field as a register number: every value is one (10 R21). -/
def regOf (f : Nibble) : Reg := ⟨f.toNat, f.isLt⟩
/-- A register number as its 4-bit field. -/
def fieldOf (r : Reg) : Nibble := BitVec.ofNat 4 r.val

/-! ### Decoding (30 R74) -/

/-- Group 0x8: the sub-opcode is `n`. -/
def decodeGroup8 (op : Word) : Except DecodeError Instr :=
  let x := regOf (opX op)
  let y := regOf (opY op)
  match (opN op).toNat with
  | 0x0 => .ok (.ldVxVy x y)
  | 0x1 => .ok (.orVxVy x y)
  | 0x2 => .ok (.andVxVy x y)
  | 0x3 => .ok (.xorVxVy x y)
  | 0x4 => .ok (.addVxVy x y)
  | 0x5 => .ok (.subVxVy x y)
  | 0x6 => .ok (.shrVx x y)
  | 0x7 => .ok (.subnVxVy x y)
  | 0xE => .ok (.shlVx x y)
  | _ => .error (.unrecognized op)

/-- Group 0xF: the sub-opcode is `kk`. -/
def decodeGroupF (op : Word) : Except DecodeError Instr :=
  let x := regOf (opX op)
  match (opKk op).toNat with
  | 0x07 => .ok (.ldVxDt x)
  | 0x0A => .ok (.ldVxK x)
  | 0x15 => .ok (.ldDtVx x)
  | 0x18 => .ok (.ldStVx x)
  | 0x1E => .ok (.addIVx x)
  | 0x29 => .ok (.ldFVx x)
  | 0x33 => .ok (.ldBVx x)
  | 0x55 => .ok (.ldMemIVx x)
  | 0x65 => .ok (.ldVxMemI x)
  | _ => .error (.unrecognized op)

/-- The total function from words to the 34 instructions or the verdict unrecognized (30 R74). -/
def decodeWord (op : Word) : Except DecodeError Instr :=
  let x := regOf (opX op)
  let y := regOf (opY op)
  let kk := opKk op
  let nnn := opNnn op
  match (opGroup op).toNat with
  | 0x0 =>
    if op = 0x00E0 then .ok .cls
    else if op = 0x00EE then .ok .ret
    else .error (.unrecognized op)
  | 0x1 => .ok (.jpNnn nnn)
  | 0x2 => .ok (.callNnn nnn)
  | 0x3 => .ok (.seVxKk x kk)
  | 0x4 => .ok (.sneVxKk x kk)
  | 0x5 => if opN op = 0 then .ok (.seVxVy x y) else .error (.unrecognized op)
  | 0x6 => .ok (.ldVxKk x kk)
  | 0x7 => .ok (.addVxKk x kk)
  | 0x8 => decodeGroup8 op
  | 0x9 => if opN op = 0 then .ok (.sneVxVy x y) else .error (.unrecognized op)
  | 0xA => .ok (.ldINnn nnn)
  | 0xB => .ok (.jpV0Nnn nnn)
  | 0xC => .ok (.rndVxKk x kk)
  | 0xD => .ok (.drwVxVyN x y (opN op))
  | 0xE =>
    if kk = 0x9E then .ok (.skpVx x)
    else if kk = 0xA1 then .ok (.sknpVx x)
    else .error (.unrecognized op)
  | 0xF => decodeGroupF op
  | _ => .error (.unrecognized op)

/-- The word of two bytes, the high byte first: instructions are stored big-endian (20 R55, 30 R70). -/
def wordOfBytes (hi lo : Byte) : Word := hi ++ lo

/-- Decode the instruction at the head of a list of bytes, and answer the bytes after it. Total; it rejects by name. -/
def decode : List Byte → Except DecodeError (Instr × List Byte)
  | hi :: lo :: rest =>
    match decodeWord (wordOfBytes hi lo) with
    | .ok i => .ok (i, rest)
    | .error e => .error e
  | _ => .error .truncated

/-! ### Encoding (30 R72, R75) -/

/-- Format NNN. -/
def formatNnn (g : Nibble) (nnn : Addr) : Word := g ++ nnn
/-- Format XKK; format X is this with the sub-opcode in the place of `kk`. -/
def formatXkk (g : Nibble) (x : Reg) (kk : Byte) : Word := g ++ fieldOf x ++ kk
/-- Format XYN; format XY is this with the sub-opcode in the place of `n`. -/
def formatXyn (g : Nibble) (x y : Reg) (n : Nibble) : Word := g ++ fieldOf x ++ fieldOf y ++ n

/-- The word of an instruction (30 R75). -/
def encode : Instr → Word
  | .cls => 0x00E0
  | .ret => 0x00EE
  | .jpNnn nnn => formatNnn 0x1 nnn
  | .callNnn nnn => formatNnn 0x2 nnn
  | .seVxKk x kk => formatXkk 0x3 x kk
  | .sneVxKk x kk => formatXkk 0x4 x kk
  | .seVxVy x y => formatXyn 0x5 x y 0x0
  | .ldVxKk x kk => formatXkk 0x6 x kk
  | .addVxKk x kk => formatXkk 0x7 x kk
  | .ldVxVy x y => formatXyn 0x8 x y 0x0
  | .orVxVy x y => formatXyn 0x8 x y 0x1
  | .andVxVy x y => formatXyn 0x8 x y 0x2
  | .xorVxVy x y => formatXyn 0x8 x y 0x3
  | .addVxVy x y => formatXyn 0x8 x y 0x4
  | .subVxVy x y => formatXyn 0x8 x y 0x5
  | .shrVx x y => formatXyn 0x8 x y 0x6
  | .subnVxVy x y => formatXyn 0x8 x y 0x7
  | .shlVx x y => formatXyn 0x8 x y 0xE
  | .sneVxVy x y => formatXyn 0x9 x y 0x0
  | .ldINnn nnn => formatNnn 0xA nnn
  | .jpV0Nnn nnn => formatNnn 0xB nnn
  | .rndVxKk x kk => formatXkk 0xC x kk
  | .drwVxVyN x y n => formatXyn 0xD x y n
  | .skpVx x => formatXkk 0xE x 0x9E
  | .sknpVx x => formatXkk 0xE x 0xA1
  | .ldVxDt x => formatXkk 0xF x 0x07
  | .ldVxK x => formatXkk 0xF x 0x0A
  | .ldDtVx x => formatXkk 0xF x 0x15
  | .ldStVx x => formatXkk 0xF x 0x18
  | .addIVx x => formatXkk 0xF x 0x1E
  | .ldFVx x => formatXkk 0xF x 0x29
  | .ldBVx x => formatXkk 0xF x 0x33
  | .ldMemIVx x => formatXkk 0xF x 0x55
  | .ldVxMemI x => formatXkk 0xF x 0x65

/-- The high byte of a word, stored at the lower address (20 R55). -/
def highByte (op : Word) : Byte := op.extractLsb' 8 8
/-- The low byte of a word, stored at the higher address (20 R55). -/
def lowByte (op : Word) : Byte := op.extractLsb' 0 8

/-- A word as the two bytes the hardware stores, the first at the lower address. -/
def bytesOfWord (op : Word) : List Byte := [highByte op, lowByte op]

/-- An instruction as the bytes the hardware stores. -/
def encodeBytes (i : Instr) : List Byte := bytesOfWord (encode i)

/-- The word that spec/opcode_table.json numbers: bit 0 is its least significant bit, and what lies above `nbits` is
0. -/
def tableWord (nbits w : Nat) : Word := BitVec.ofNat 16 (w % 2 ^ nbits)

/-- The instruction the decoder reads from the bits the opcode table numbers. -/
def decodeTableWord (nbits w : Nat) : Option Instr :=
  match decode (bytesOfWord (tableWord nbits w)) with
  | .ok (i, _) => some i
  | .error _ => none

end Sys2Proof
end

