-- ==== Sys2Proof/Config.lean ====
section
/-! DEFINITION. What stands fixed for one machine: the sizes of spec 00 R5, and the FREE VALUES, which have no body,
so that no proof can see them. The font and its base are in `Machine/Memory.lean`. -/

namespace Sys2Proof.Config

/-- MEM_SIZE (00 R5): addresses 0x000 to 0xFFF. -/
def memSize : Nat := 0x1000

/-- PROG_BASE (00 R5): where `load_rom` puts the first byte. -/
def progBase : Nat := 0x200

/-- ROM_MAX (00 R5): the largest program `load_rom` accepts, in bytes. -/
def romMax : Nat := 0xE00

/-- FREE VALUE (93 U2; 70 R239; assumption log 2). The sixteen key levels seen by the cycle that is step number `n`,
for a cycle whose levels the driver's queue does not give. -/
opaque freeKeys : Nat → BitVec 16

/-- FREE VALUE (93 U1; 92 D19; assumption log 3). The random byte delivered to the cycle that is step number `n`,
for a cycle whose byte the driver's queue does not give. -/
opaque freeRnd : Nat → Byte

end Sys2Proof.Config
end

