-- ==== Sys2Proof/Machine/State.lean ====
section
/-! DEFINITION. The state of the CHIP-8 CORE as plain data (spec 10 R20), the triggers the driver issues (10 R36), the
fault causes (60 R201), the refusals, and the state after reset (10 R39). -/

namespace Sys2Proof.Machine

/-- The six fault causes, in the order of their codes (60 R201). A fault is TAKEN: the cycle (or the ROM load) that
raises it answers a NEXT state whose run state is `faulted` and holds the cause (60 R210). No step ends with
`Host.Outcome.fault`: the faulted machine still has its timer ticks and its reset (60 R216, R224). -/
inductive Fault where
  /-- Code 1. Raised by `load_rom` of more than 0xE00 bytes (60 R202). Safe: nothing is copied, as the spec says. -/
  | romTooLarge
  /-- Code 2. Raised by decode, in a cycle in Running (60 R203). Safe: the spec's own stop. -/
  | unrecognizedOpcode
  /-- Code 3. Raised by CALL with sp = 16 (60 R204). Safe: the spec's own stop. -/
  | stackOverflow
  /-- Code 4. Raised by RET with sp = 0 (60 R205). Safe: the spec's own stop. -/
  | stackUnderflow
  /-- Code 5. Raised by the fetch, DRW, LD B, LD [I] and LD Vx [I] for an access above 0xFFF (60 R206). Safe: the
  spec's own stop. -/
  | addressOutOfRange
  /-- Code 6. Raised by SKP and SKNP with Vx > 0xF (60 R207, the spec's own addition; assumption log 12). Safe: it
  stops where another machine might go on. -/
  | keyIndexOutOfRange
  deriving DecidableEq, Repr

/-- What a step may refuse. -/
inductive Refusal where
  /-- Raised by an arm of `exec` whose instruction has no meaning yet; no arm does. Safe: the model stops. -/
  | notModelled (mnemonic : String)
  /-- Raised by the `load_rom` step at a moment 70 R241 marks "refused": a second load, a load after the first cycle,
  or a load in Faulted. Safe: the model gives it no meaning. -/
  | loadRomRefused
  deriving DecidableEq, Repr

/-- The fault record (10 R31): what the fault outputs show. -/
structure FaultRecord where
  /-- the cause, whose code is `faultCode` -/
  cause : Fault
  /-- the address the faulting instruction was fetched from; absent for RomTooLarge -/
  iaddr : Option Word
  /-- the fetched word; absent when the fetch itself faulted and for RomTooLarge -/
  opcode : Option Word
  /-- the lowest invalid address, the key index or the ROM length; absent otherwise -/
  info : Option Nat
  deriving DecidableEq, Repr

/-- The run state (10 R30). -/
inductive Run where
  | running
  /-- waiting for a key, to be written to register `r` -/
  | awaitingKey (r : Reg)
  | faulted (rec : FaultRecord)
  deriving DecidableEq, Repr

/-- A trigger from outside, with the inputs it brings: the steps of 00 R9. -/
inductive Trigger where
  /-- `cpu_cycle(keys, rnd)`: key `k` is down when bit `k` of `keys` is 1 (10 R34, R35) -/
  | cpuCycle (keys : BitVec 16) (rnd : Byte)
  /-- `timer_tick` -/
  | timerTick
  /-- `reset` -/
  | reset
  /-- `load_rom(bytes)` -/
  | loadRom (bytes : List Byte)
  deriving DecidableEq, Repr

/-- Where the boot order of 70 R233 stands: the model's own field, so that 70 R241's refused loads can be told. -/
inductive Phase where
  /-- after a reset: no `load_rom` and no cycle yet -/
  | fresh
  /-- a `load_rom` has been performed, no cycle yet -/
  | loaded
  /-- a cycle has been performed -/
  | started
  deriving DecidableEq, Repr

/-- Memory as data: the cells that differ from the reset contents (`Memory.default`), addresses strictly rising. -/
abbrev Memory := List Host.Cell

/-- The state of the machine (10 R20), and three fields of the model's own for the world around it. -/
structure State where
  /-- 4096 bytes (10 R32, 20 R50) -/
  mem : Memory
  /-- V0 to VF (10 R21, R22) -/
  v : Vector Byte 16
  /-- the index register I (10 R23) -/
  i : Word
  /-- the program counter (10 R24) -/
  pc : Word
  /-- the 16 return-address slots (10 R26) -/
  stack : Vector Word 16
  /-- how many return addresses are held, 0 to 16 (10 R26) -/
  sp : Fin 17
  /-- the delay timer (10 R27) -/
  dt : Byte
  /-- the sound timer (10 R28) -/
  st : Byte
  /-- the framebuffer: 32 rows of 64 cells; bit `x` of row `y` is the cell `fb[y][x]` (10 R29; assumption log 22) -/
  fb : Vector (BitVec 64) 32
  /-- the run state (10 R30) -/
  run : Run
  /-- THE MODEL'S OWN (assumption log 1): the triggers the driver has issued and the machine has not performed -/
  pending : List Trigger
  /-- THE MODEL'S OWN (assumption log 11): where the boot order stands -/
  phase : Phase
  /-- THE MODEL'S OWN (assumption log 2): how many steps were performed; free inputs are drawn with it -/
  steps : Nat
  deriving DecidableEq, Repr

/-- The state after reset (10 R39, 70 R230): memory at its reset contents (nothing listed), pc = 0x200, Running, all
else zero. The last three fields are the model's own (assumption log 1, 2, 11). -/
def State.reset : State where
  mem := []
  v := Vector.replicate 16 0
  i := 0
  pc := 0x200
  stack := Vector.replicate 16 0
  sp := 0
  dt := 0
  st := 0
  fb := Vector.replicate 32 0
  run := .running
  pending := []
  phase := .fresh
  steps := 0

end Sys2Proof.Machine
end

