-- ==== Sys2Proof/Machine/Memory.lean ====
section
/-! DEFINITION. The one address space (spec 20 R50 to R54, R58, R59): the reset contents, reading and writing one byte,
and the canonical form. Addresses are natural numbers, never wrapped or masked (20 R53); which addresses an access may
touch is checked in `Machine/Ops.lean`. -/

namespace Sys2Proof.Machine

/-! ### Reset contents (20 R51, R52; 10 R39) -/

/-- FONT_BASE (00 R5, 92 D2; assumption log 6). -/
def fontBase : Nat := 0x000

/-- GLYPH_BYTES (00 R5, 20 R52). -/
def glyphBytes : Nat := 5

/-- FONT_TABLE: the default of 20 R52, one line a digit (assumption log 5). -/
def fontTable : List Byte :=
  [0xF0, 0x90, 0x90, 0x90, 0xF0] ++ -- 0
  ([0x20, 0x60, 0x20, 0x20, 0x70] ++ -- 1
  ([0xF0, 0x10, 0xF0, 0x80, 0xF0] ++ -- 2
  ([0xF0, 0x10, 0xF0, 0x10, 0xF0] ++ -- 3
  ([0x90, 0x90, 0xF0, 0x10, 0x10] ++ -- 4
  ([0xF0, 0x80, 0xF0, 0x10, 0xF0] ++ -- 5
  ([0xF0, 0x80, 0xF0, 0x90, 0xF0] ++ -- 6
  ([0xF0, 0x10, 0x20, 0x40, 0x40] ++ -- 7
  ([0xF0, 0x90, 0xF0, 0x90, 0xF0] ++ -- 8
  ([0xF0, 0x90, 0xF0, 0x10, 0xF0] ++ -- 9
  ([0xF0, 0x90, 0xF0, 0x90, 0x90] ++ -- A
  ([0xE0, 0x90, 0xE0, 0x90, 0xE0] ++ -- B
  ([0xF0, 0x80, 0x80, 0x80, 0xF0] ++ -- C
  ([0xE0, 0x90, 0x90, 0x90, 0xE0] ++ -- D
  ([0xF0, 0x80, 0xF0, 0x80, 0xF0] ++ -- E
  [0xF0, 0x80, 0xF0, 0x80, 0x80])))))))))))))) -- F

/-- What an unlisted address reads as: the font at FONT_BASE, zero elsewhere (10 R39; the zeros: assumption log 8). -/
def Memory.default (a : Nat) : Byte :=
  if fontBase ≤ a then fontTable.getD (a - fontBase) 0 else 0

/-! ### One byte (20 R54) -/

/-- The byte at address `a`. -/
def Memory.read : Memory → Nat → Byte
  | [], a => Memory.default a
  | (b, v) :: rest, a => if a = b then v else Memory.read rest a

/-- A cell in front of a memory, unless it holds the reset contents: such a cell is not listed. -/
def Memory.cons (a : Nat) (v : Byte) (m : Memory) : Memory :=
  if v = Memory.default a then m else (a, v) :: m

/-- Store byte `v` at address `a`, keeping the canonical form. -/
def Memory.write : Memory → Nat → Byte → Memory
  | [], a, v => Memory.cons a v []
  | (b, w) :: rest, a, v =>
    if a < b then Memory.cons a v ((b, w) :: rest)
    else if a = b then Memory.cons a v rest
    else (b, w) :: Memory.write rest a v

/-- Store the bytes at ascending addresses from `base` (20 R55, R57). -/
def Memory.writeList (m : Memory) (base : Nat) : List Byte → Memory
  | [] => m
  | b :: bs => Memory.writeList (Memory.write m base b) (base + 1) bs

/-! ### The canonical form -/

/-- Addresses strictly rising from `lo`, all inside the address space, no cell equal to the reset contents. -/
def Memory.wfFrom (lo : Nat) : Memory → Bool
  | [] => true
  | (a, v) :: rest =>
    decide (lo ≤ a) && decide (a < Config.memSize) && (v != Memory.default a) && Memory.wfFrom (a + 1) rest

/-- The canonical form of a memory. -/
def Memory.wf (m : Memory) : Bool := Memory.wfFrom 0 m

end Sys2Proof.Machine
end

