-- ==== Sys2Proof/Machine/Ops.lean ====
section
/-! DEFINITION. The named operations every instruction and every step is written with: registers, the program counter,
the stack, block accesses to memory, the inputs of a cycle, and taking a fault (spec 00 R8, 10 R21 to R31, 20 R53 to
R66, 60 R210). -/

namespace Sys2Proof.Machine

/-! ### Registers and timers (00 R8) -/

/-- `V[x]`. -/
def State.getV (s : State) (x : Reg) : Byte := s.v.get x

/-- `V[x] <- b`. -/
def State.setV (s : State) (x : Reg) (b : Byte) : State := { s with v := s.v.set x.val b x.isLt }

/-- `I <- w`. -/
def State.setI (s : State) (w : Word) : State := { s with i := w }

/-- `pc <- w`. -/
def State.setPc (s : State) (w : Word) : State := { s with pc := w }

/-- `DT <- b`. -/
def State.setDt (s : State) (b : Byte) : State := { s with dt := b }

/-- `ST <- b`. -/
def State.setSt (s : State) (b : Byte) : State := { s with st := b }

/-- The whole framebuffer at once. -/
def State.setFb (s : State) (fb : Vector (BitVec 64) 32) : State := { s with fb := fb }

/-- `run <- r`. -/
def State.setRun (s : State) (r : Run) : State := { s with run := r }

/-- The whole register file at once (LD Vx [I]). -/
def State.setRegs (s : State) (v : Vector Byte 16) : State := { s with v := v }

/-- The whole memory at once. -/
def State.setMem (s : State) (m : Memory) : State := { s with mem := m }

/-! ### The program counter (10 R24, 40 R100, R101) -/

/-- The advance of the cycle: `pc <- pc + 2`, modulo 65536 (10 R25). -/
def State.advance (s : State) : State := s.setPc (s.pc + 2)

/-- `pc <- pc + 2` on the advanced pc when the condition holds: the skip (40 R101). -/
def State.skipIf (s : State) (c : Bool) : State := s.setPc (if c then s.pc + 2 else s.pc)

/-! ### The call stack (10 R26) -/

/-- `push(v)`: none when the stack is full. -/
def State.push (s : State) (v : Word) : Option State :=
  if h : s.sp.val < 16 then
    some { s with stack := s.stack.set s.sp.val v h, sp := ⟨s.sp.val + 1, by omega⟩ }
  else none

/-- `pop()`: the popped address and the state after, none when the stack is empty. A popped slot keeps its value. -/
def State.pop (s : State) : Option (Word × State) :=
  if h : 0 < s.sp.val then
    some (s.stack[s.sp.val - 1]'(by omega), { s with sp := ⟨s.sp.val - 1, by omega⟩ })
  else none

/-! ### Memory accesses of several bytes (20 R53, R54, R57, R66) -/

/-- The byte at address `a`. -/
def State.readByte (s : State) (a : Nat) : Byte := s.mem.read a

/-- Every address of the `n` bytes from `base` is valid: at most 0xFFF (20 R53). No byte, no check. -/
def validRange (base n : Nat) : Bool := n == 0 || decide (base + n ≤ Config.memSize)

/-- The lowest invalid address of an invalid access from `base` (20 R66). -/
def lowestInvalid (base : Nat) : Nat := max base Config.memSize

/-- The `n` bytes from `base`, or none if one of their addresses is invalid (20 R66). -/
def State.readBlock (s : State) (base n : Nat) : Option (List Byte) :=
  if validRange base n then some ((List.range n).map fun k => s.readByte (base + k)) else none

/-- Store the bytes from `base`, or none if one of their addresses is invalid: all or nothing (20 R66). -/
def State.writeBlock (s : State) (base : Nat) (bytes : List Byte) : Option State :=
  if validRange base bytes.length then some (s.setMem (s.mem.writeList base bytes)) else none

/-! ### The inputs of this cycle (10 R34, R35; assumption log 2, 3) -/

/-- The sixteen key levels this cycle samples: those its trigger brings, else free ones. -/
def State.keys (s : State) : BitVec 16 :=
  match s.pending with
  | .cpuCycle keys _ :: _ => keys
  | _ => Config.freeKeys s.steps

/-- The random byte this cycle samples: the one its trigger brings, else a free one. -/
def State.rnd (s : State) : Byte :=
  match s.pending with
  | .cpuCycle _ rnd :: _ => rnd
  | _ => Config.freeRnd s.steps

/-- `keys[k] = 1`. -/
def State.keyDown (s : State) (k : Nat) : Bool := s.keys.getLsbD k

/-! ### Taking a fault (60 R210)

There is no handler and no return from a fault (60 R212): the way out is `reset` (`State.resetStep`). -/

/-- `raise`: the run state becomes Faulted with the record; nothing else changes. -/
def State.raise (s : State) (cause : Fault) (iaddr opcode : Option Word) (info : Option Nat) : State :=
  s.setRun (.faulted ⟨cause, iaddr, opcode, info⟩)

/-- A fault of the fetch at A: pc is still A, and there is no word (60 R206, R210). -/
def State.raiseFetch (s : State) : State :=
  s.raise .addressOutOfRange (some s.pc) none (some (lowestInvalid s.pc.toNat))

/-- A fault of the word `op`, fetched from A: pc is A + 2 by now, so A is pc - 2 (60 R210; assumption log 10). -/
def State.raiseWord (s : State) (op : Word) (cause : Fault) (info : Option Nat) : State :=
  s.raise cause (some (s.pc - 2)) (some op) info

/-- A fault of an instruction: the fetched word is the instruction's own (60 R201, R210; assumption log 10). -/
def State.raiseInstr (s : State) (i : Instr) (cause : Fault) (info : Option Nat) : State :=
  s.raiseWord (encode i) cause info

/-- AddressOutOfRange of an instruction whose access begins at I (60 R206). -/
def State.raiseIndexRange (s : State) (i : Instr) : State :=
  s.raiseInstr i .addressOutOfRange (some (lowestInvalid s.i.toNat))

/-! ### The other steps (00 R9) -/

/-- One 8-bit counter down by one, not below 0 (60 R215). -/
def tickDown (t : Byte) : Byte := if t = 0 then 0 else t - 1

/-- `timer_tick` (60 R215). -/
def State.timerTick (s : State) : State := (s.setDt (tickDown s.dt)).setSt (tickDown s.st)

/-- The lowest-indexed pressed key (44 R166). -/
def lowestKey (keys : BitVec 16) : Option Nat := (List.range 16).find? fun k => keys.getLsbD k

/-- The poll of AwaitingKey(r) (44 R166). -/
def State.poll (s : State) (r : Reg) : State :=
  match lowestKey s.keys with
  | some k => (s.setV r (BitVec.ofNat 8 k)).setRun .running
  | none => s

/-- `reset`: every piece of the machine's state at its reset value, from any state (70 R230). The driver's queue and
the step counter are not the machine's and stay. -/
def State.resetStep (s : State) : State := { State.reset with pending := s.pending, steps := s.steps }

/-- The run state is Faulted. -/
def State.isFaulted (s : State) : Bool :=
  match s.run with
  | .faulted _ => true
  | _ => false

/-- The boot protocol moves on. -/
def State.setPhase (s : State) (p : Phase) : State := { s with phase := p }

/-- `load_rom(bytes)` (70 R232, R233, R241): refused but for the first load after a reset and before the first cycle;
RomTooLarge with nothing copied when longer than 0xE00; else the bytes from 0x200 up. -/
def State.loadRom (s : State) (bytes : List Byte) : Host.Outcome State Fault Refusal :=
  if s.phase ≠ .fresh || s.isFaulted then .refused .loadRomRefused
  else if Config.romMax < bytes.length then
    .next ((s.raise .romTooLarge none none (some bytes.length)).setPhase .loaded)
  else .next ((s.setMem (s.mem.writeList Config.progBase bytes)).setPhase .loaded)

/-- The two bytes at pc as a word, high byte first; none when one of them does not exist (40 R100, 20 R55, R66). -/
def State.fetch (s : State) : Option Word :=
  match s.readBlock s.pc.toNat 2 with
  | some [hi, lo] => some (wordOfBytes hi lo)
  | _ => none

/-- The trigger of this step: the head of the driver's queue; when the queue holds none, a cycle with free inputs
(assumption log 1). -/
def State.trigger (s : State) : Trigger :=
  match s.pending with
  | t :: _ => t
  | [] => .cpuCycle s.keys s.rnd

/-- The step is over: its trigger leaves the queue, the counter goes on. -/
def State.consume (s : State) : State := { s with pending := s.pending.tail, steps := s.steps + 1 }

end Sys2Proof.Machine
end

