-- ==== Sys2Proof/Machine/Flags.lean ====
section
/-! DEFINITION. The flag VF and the results beside it (spec 10 R22; 41 R131, R132). All on 8-bit unsigned values. -/

namespace Sys2Proof.Machine

/-- The register VF (10 R22). -/
def vf : Reg := 0xF

/-- A flag is exactly 0x00 or 0x01 (10 R22; 41 R132). -/
def flagByte (c : Bool) : Byte := if c then 1 else 0

/-- Carry: the full-width sum exceeds 255 (41 R126, R131). -/
def carry (a b : Byte) : Bool := decide (255 < a.toNat + b.toNat)

/-- NOT borrow of `a - b`: `a >= b` (41 R127, R131). -/
def notBorrow (a b : Byte) : Bool := decide (b.toNat ≤ a.toNat)

/-- Logical shift right by one: `a / 2` (41 R128). -/
def shiftRight (a : Byte) : Byte := a >>> 1

/-- The bit SHR shifts out (41 R128). -/
def shiftedOutRight (a : Byte) : Bool := a.getLsbD 0

/-- Shift left by one: `2 * a mod 256` (41 R130). -/
def shiftLeft (a : Byte) : Byte := a <<< 1

/-- The bit SHL shifts out (41 R130). -/
def shiftedOutLeft (a : Byte) : Bool := a.getLsbD 7

/-- The result to V[x], then the flag to VF, the last write (41 R132; 10 R22; assumption log 18). -/
def State.setResultFlag (s : State) (x : Reg) (result : Byte) (flag : Bool) : State :=
  (s.setV x result).setV vf (flagByte flag)

end Sys2Proof.Machine
end

