-- ==== Sys2Proof/Machine/Operands.lean ====
section
/-! DEFINITION. The operand forms (spec 30 R73; the opening of 45): immediates, the implicit V0, the index register as
a base address, the key index, the glyph address, the decimal digits and the register lists. A register operand is
`State.getV`. -/

namespace Sys2Proof.Machine

/-- `zext_16(nnn)`: an immediate address, unsigned and unscaled (30 R73). -/
def immAddr (nnn : Addr) : Word := nnn.setWidth 16

/-- `zext_16(V[x])`. -/
def zext16 (b : Byte) : Word := b.setWidth 16

/-- `n` of Dxyn as a count, 0 to 15 (30 R73). -/
def rowCount (n : Nibble) : Nat := n.toNat

/-- The implicit operand V0 of Bnnn (40 R109). -/
def State.v0 (s : State) : Byte := s.getV 0

/-- The base of an access through I, as a natural number (20 R53). -/
def State.indexBase (s : State) : Nat := s.i.toNat

/-- The key index V[x] when it is one: at most 0xF (44 R160; assumption log 12). -/
def State.keyIndex (s : State) (x : Reg) : Option Nat :=
  if (s.getV x).toNat ≤ 0xF then some (s.getV x).toNat else none

/-- `FONT_BASE + 5 * V[x]`, on all 8 bits of V[x] (45 R180; assumption log 16). -/
def glyphAddr (d : Byte) : Word := BitVec.ofNat 16 (fontBase + glyphBytes * d.toNat)

/-- Hundreds, tens and ones of a byte (45 R181). -/
def bcdDigits (b : Byte) : List Byte :=
  [BitVec.ofNat 8 (b.toNat / 100), BitVec.ofNat 8 (b.toNat / 10 % 10), BitVec.ofNat 8 (b.toNat % 10)]

/-- V0 to Vx, in that order (45 R182). -/
def State.regsTo (s : State) (x : Reg) : List Byte := s.v.toList.take (x.val + 1)

/-- Registers `k`, `k + 1`, … get the bytes in order (45 R183). -/
def fillRegs (v : Vector Byte 16) (k : Nat) : List Byte → Vector Byte 16
  | [] => v
  | b :: bs => fillRegs (v.setIfInBounds k b) (k + 1) bs

end Sys2Proof.Machine
end

