-- ==== Sys2Proof/Machine/ControlFlow.lean ====
section
/-! DEFINITION. RET, JP, CALL, the register skips and JP V0 (spec 40 R102 to R109). pc is A + 2 when a meaning runs
(40 R100). -/

namespace Sys2Proof.Machine

/-- 00EE (40 R102). -/
def execRet (s : State) : Host.Outcome State Fault Refusal :=
  match s.pop with
  | some (target, s') => .next (s'.setPc target)
  | none => .next (s.raiseInstr .ret .stackUnderflow none)

/-- 1nnn (40 R103). -/
def execJpNnn (nnn : Addr) (s : State) : Host.Outcome State Fault Refusal := .next (s.setPc (immAddr nnn))

/-- 2nnn (40 R104). -/
def execCallNnn (nnn : Addr) (s : State) : Host.Outcome State Fault Refusal :=
  match s.push s.pc with
  | some s' => .next (s'.setPc (immAddr nnn))
  | none => .next (s.raiseInstr (.callNnn nnn) .stackOverflow none)

/-- 3xkk (40 R105). -/
def execSeVxKk (x : Reg) (kk : Byte) (s : State) : Host.Outcome State Fault Refusal :=
  .next (s.skipIf (s.getV x == kk))

/-- 4xkk (40 R106). -/
def execSneVxKk (x : Reg) (kk : Byte) (s : State) : Host.Outcome State Fault Refusal :=
  .next (s.skipIf (s.getV x != kk))

/-- 5xy0 (40 R107). -/
def execSeVxVy (x y : Reg) (s : State) : Host.Outcome State Fault Refusal :=
  .next (s.skipIf (s.getV x == s.getV y))

/-- 9xy0 (40 R108). -/
def execSneVxVy (x y : Reg) (s : State) : Host.Outcome State Fault Refusal :=
  .next (s.skipIf (s.getV x != s.getV y))

/-- Bnnn (40 R109): not masked to 12 bits. -/
def execJpV0Nnn (nnn : Addr) (s : State) : Host.Outcome State Fault Refusal :=
  .next (s.setPc (immAddr nnn + zext16 s.v0))

end Sys2Proof.Machine
end

