-- ==== Sys2Proof/Machine/Sprite.lean ====
section
/-! DEFINITION. The sprite engine (spec 43 R151, R152): the loop of R151's pseudocode, pixel by pixel. -/

namespace Sys2Proof.Machine

/-- `fb[cy][cx]` (10 R29). -/
def pixel (fb : Vector (BitVec 64) 32) (cx : Fin 64) (cy : Fin 32) : Bool := (fb.get cy).getLsbD cx.val

/-- `fb[cy][cx] <- fb[cy][cx] XOR 1`. -/
def flipPixel (fb : Vector (BitVec 64) 32) (cx : Fin 64) (cy : Fin 32) : Vector (BitVec 64) 32 :=
  fb.set cy.val (fb.get cy ^^^ BitVec.twoPow 64 cx.val) cy.isLt

/-- What the loop carries: the framebuffer and `hit`. -/
structure Canvas where
  fb : Vector (BitVec 64) 32
  hit : Bool
  deriving DecidableEq, Repr

/-- `(X + col) mod 64` (43 R151). -/
def wrapX (x : Byte) (col : Nat) : Fin 64 := ⟨(x.toNat + col) % 64, Nat.mod_lt _ (by decide)⟩

/-- `(Y + row) mod 32` (43 R151). -/
def wrapY (y : Byte) (row : Nat) : Fin 32 := ⟨(y.toNat + row) % 32, Nat.mod_lt _ (by decide)⟩

/-- One set bit of the sprite at (cx, cy): note a collision, complement the cell. -/
def Canvas.toggle (c : Canvas) (cx : Fin 64) (cy : Fin 32) : Canvas :=
  { fb := flipPixel c.fb cx cy, hit := c.hit || pixel c.fb cx cy }

/-- One column of one row: bit 7 of the byte is the leftmost pixel (43 R152). -/
def drawBit (x : Byte) (cy : Fin 32) (b : Byte) (c : Canvas) (col : Nat) : Canvas :=
  if b.getLsbD (7 - col) then c.toggle (wrapX x col) cy else c

/-- One row of the sprite: its 8 columns, left to right. -/
def drawRow (x : Byte) (cy : Fin 32) (b : Byte) (c : Canvas) : Canvas :=
  (List.range 8).foldl (drawBit x cy b) c

/-- The rows of the sprite from row number `row` on. -/
def drawRows (x y : Byte) (row : Nat) (c : Canvas) : List Byte → Canvas
  | [] => c
  | b :: bs => drawRows x y (row + 1) (drawRow x (wrapY y row) b c) bs

/-- `draw(x, y, sprite_bytes)` on a framebuffer (43 R152). -/
def drawSprite (fb : Vector (BitVec 64) 32) (x y : Byte) (rows : List Byte) : Canvas :=
  drawRows x y 0 { fb := fb, hit := false } rows

end Sys2Proof.Machine
end

