-- ==== Sys2Proof/Machine/Display.lean ====
section
/-! DEFINITION. CLS and DRW (spec 43 R150, R151). -/

namespace Sys2Proof.Machine

/-- The framebuffer with every cell 0 (43 R150). -/
def clearFb : Vector (BitVec 64) 32 := Vector.replicate 32 0

/-- 00E0 (43 R150): VF is not written. -/
def execCls (s : State) : Host.Outcome State Fault Refusal := .next (s.setFb clearFb)

/-- The framebuffer and VF after a sprite was drawn; VF is the last write (43 R151). -/
def State.setCanvas (s : State) (c : Canvas) : State := (s.setFb c.fb).setV vf (flagByte c.hit)

/-- Dxyn (43 R151): n = 0 checks no address and draws nothing. -/
def execDrwVxVyN (x y : Reg) (n : Nibble) (s : State) : Host.Outcome State Fault Refusal :=
  match s.readBlock s.indexBase (rowCount n) with
  | some rows => .next (s.setCanvas (drawSprite s.fb (s.getV x) (s.getV y) rows))
  | none => .next (s.raiseIndexRange (.drwVxVyN x y n))

end Sys2Proof.Machine
end

