-- ==== Sys2Proof/Machine/IndexRandom.lean ====
section
/-! DEFINITION. LD I, ADD I and RND (spec 42 R140 to R142). -/

namespace Sys2Proof.Machine

/-- Annn (42 R140). -/
def execLdINnn (nnn : Addr) (s : State) : Host.Outcome State Fault Refusal := .next (s.setI (immAddr nnn))

/-- Fx1E (42 R141): modulo 65536, VF not written. -/
def execAddIVx (x : Reg) (s : State) : Host.Outcome State Fault Refusal := .next (s.setI (s.i + zext16 (s.getV x)))

/-- Cxkk (42 R142). -/
def execRndVxKk (x : Reg) (kk : Byte) (s : State) : Host.Outcome State Fault Refusal :=
  .next (s.setV x (s.rnd &&& kk))

end Sys2Proof.Machine
end

