-- ==== Sys2Proof/Machine/KeysTimers.lean ====
section
/-! DEFINITION. The key tests, the timer accesses and the key wait (spec 44 R160 to R165). The poll of the wait is
`State.poll`. -/

namespace Sys2Proof.Machine

/-- Ex9E (44 R160). -/
def execSkpVx (x : Reg) (s : State) : Host.Outcome State Fault Refusal :=
  match s.keyIndex x with
  | some k => .next (s.skipIf (s.keyDown k))
  | none => .next (s.raiseInstr (.skpVx x) .keyIndexOutOfRange (some (s.getV x).toNat))

/-- ExA1 (44 R161). -/
def execSknpVx (x : Reg) (s : State) : Host.Outcome State Fault Refusal :=
  match s.keyIndex x with
  | some k => .next (s.skipIf (!s.keyDown k))
  | none => .next (s.raiseInstr (.sknpVx x) .keyIndexOutOfRange (some (s.getV x).toNat))

/-- Fx07 (44 R162). -/
def execLdVxDt (x : Reg) (s : State) : Host.Outcome State Fault Refusal := .next (s.setV x s.dt)

/-- Fx0A (44 R163): this cycle does not look at the keys. -/
def execLdVxK (x : Reg) (s : State) : Host.Outcome State Fault Refusal := .next (s.setRun (.awaitingKey x))

/-- Fx15 (44 R164). -/
def execLdDtVx (x : Reg) (s : State) : Host.Outcome State Fault Refusal := .next (s.setDt (s.getV x))

/-- Fx18 (44 R165). -/
def execLdStVx (x : Reg) (s : State) : Host.Outcome State Fault Refusal := .next (s.setSt (s.getV x))

end Sys2Proof.Machine
end

