-- ==== Sys2Proof/Machine/MemoryOps.lean ====
section
/-! DEFINITION. LD F, LD B, LD [I] Vx and LD Vx [I] (spec 45 R180 to R183). I is never changed by an access through
it; every access is checked whole first (20 R66). -/

namespace Sys2Proof.Machine

/-- Fx29 (45 R180). -/
def execLdFVx (x : Reg) (s : State) : Host.Outcome State Fault Refusal := .next (s.setI (glyphAddr (s.getV x)))

/-- Fx33 (45 R181). -/
def execLdBVx (x : Reg) (s : State) : Host.Outcome State Fault Refusal :=
  match s.writeBlock s.indexBase (bcdDigits (s.getV x)) with
  | some s' => .next s'
  | none => .next (s.raiseIndexRange (.ldBVx x))

/-- Fx55 (45 R182). -/
def execLdMemIVx (x : Reg) (s : State) : Host.Outcome State Fault Refusal :=
  match s.writeBlock s.indexBase (s.regsTo x) with
  | some s' => .next s'
  | none => .next (s.raiseIndexRange (.ldMemIVx x))

/-- Fx65 (45 R183). -/
def execLdVxMemI (x : Reg) (s : State) : Host.Outcome State Fault Refusal :=
  match s.readBlock s.indexBase (x.val + 1) with
  | some bytes => .next (s.setRegs (fillRegs s.v 0 bytes))
  | none => .next (s.raiseIndexRange (.ldVxMemI x))

end Sys2Proof.Machine
end

