-- ==== Sys2Proof/Machine/Cycle.lean ====
section
/-! DEFINITION. One `cpu_cycle`, and one step of the machine for whichever trigger comes next (spec 00 R9, 40 R100,
44 R166, 60 R215, R224, 70 R230, R232). -/

namespace Sys2Proof.Machine

/-- Decode and execute the word `op`, fetched already, with pc advanced (40 R100). -/
def State.runWord (s : State) (op : Word) : Host.Outcome State Fault Refusal :=
  match decodeWord op with
  | .ok i => exec i s
  | .error _ => .next (s.raiseWord op .unrecognizedOpcode none)

/-- A cycle in Running: fetch, advance, decode, execute (40 R100). -/
def State.runningCycle (s : State) : Host.Outcome State Fault Refusal :=
  match s.fetch with
  | some op => s.advance.runWord op
  | none => .next s.raiseFetch

/-- `cpu_cycle` (40 R100). In Faulted nothing changes (60 R224, 93 U15; assumption log 9). -/
def State.cpuCycle (s : State) : Host.Outcome State Fault Refusal :=
  match s.run with
  | .faulted _ => .next s
  | .awaitingKey r => .next (s.poll r)
  | .running => (s.setPhase .started).runningCycle

/-- The step a trigger starts (00 R9). -/
def State.perform (s : State) : Trigger → Host.Outcome State Fault Refusal
  | .cpuCycle _ _ => s.cpuCycle
  | .timerTick => .next s.timerTick
  | .reset => .next s.resetStep
  | .loadRom bytes => s.loadRom bytes

/-- What the step adds around its trigger's effect: the trigger is gone from the driver's queue. -/
def finishStep : Host.Outcome State Fault Refusal → Host.Outcome State Fault Refusal
  | .next s => .next s.consume
  | .fault r => .fault r
  | .refused r => .refused r

/-- One step: the next trigger's. -/
def stepMachine (s : State) : Host.Outcome State Fault Refusal := finishStep (s.perform s.trigger)

/-! ### Placing one instruction where the next step fetches (assumption log 24) -/

/-- The trigger queue as it is when its head is a cycle or it is empty; else with a cycle, of free inputs, in front. -/
def State.withCycleNext (s : State) : State :=
  match s.pending with
  | [] => s
  | .cpuCycle _ _ :: _ => s
  | _ => { s with pending := .cpuCycle (Config.freeKeys s.steps) (Config.freeRnd s.steps) :: s.pending }

/-- pc as it is when a word can be fetched there; else the program base. -/
def State.withFetchablePc (s : State) : State :=
  if validRange s.pc.toNat 2 then s else s.setPc (BitVec.ofNat 16 Config.progBase)

/-- The next step is a cycle in Running that fetches the bytes placed: written at pc, in the state made ready. -/
def State.placeAtFetch (s : State) (bytes : List Byte) : State :=
  let ready := (s.withCycleNext.withFetchablePc).setRun .running
  ready.setMem (ready.mem.writeList ready.pc.toNat bytes)

end Sys2Proof.Machine
end

