-- ==== Sys2Proof/Machine/Step.lean ====
section
/-! DEFINITION. The step function, and an instruction placed where the next step fetches. -/

namespace Sys2Proof.Machine

/-- One step of the machine: the driver's next trigger (spec 00 R9). -/
def step (s : State) : Host.Outcome State Fault Refusal := stepMachine s

/-- `s` with the instruction whose bits the opcode table numbers as `w` placed where `step` fetches next, and with all
else that the very next step needs to run it: Running, a cycle as the next trigger, a fetchable pc. From a state that
has these (State.reset has them) only the two bytes at pc change. -/
def State.withFetchWord (s : State) (nbits w : Nat) : State := s.placeAtFetch (bytesOfWord (tableWord nbits w))

end Sys2Proof.Machine
end

