-- ==== Sys2Proof/Machine/Assembler.lean ====
section
/-! DEFINITION. The notation programs are written down in (spec 30 R79, R80): its assembler, and a printer. No meaning of
an instruction depends on it. What R79 leaves open of it is assumption log 26. -/

namespace Sys2Proof.Asm

/-- A text, character by character. -/
abbrev Text := List Char

/-! ### Words and numbers -/

/-- The mnemonics of 30 R75. -/
inductive Mnemonic where
  | cls | ret | jp | call | se | sne | ld | add | or | and | xor | sub | shr | subn | shl | rnd | drw | skp | sknp
  deriving DecidableEq, Repr

/-- All of them. -/
def Mnemonic.all : List Mnemonic :=
  [.cls, .ret, .jp, .call, .se, .sne, .ld, .add, .or, .and, .xor, .sub, .shr, .subn, .shl, .rnd, .drw, .skp, .sknp]

/-- "A mnemonic in capitals" (30 R79). -/
def Mnemonic.spelling : Mnemonic → Text
  | .cls => "CLS".toList
  | .ret => "RET".toList
  | .jp => "JP".toList
  | .call => "CALL".toList
  | .se => "SE".toList
  | .sne => "SNE".toList
  | .ld => "LD".toList
  | .add => "ADD".toList
  | .or => "OR".toList
  | .and => "AND".toList
  | .xor => "XOR".toList
  | .sub => "SUB".toList
  | .shr => "SHR".toList
  | .subn => "SUBN".toList
  | .shl => "SHL".toList
  | .rnd => "RND".toList
  | .drw => "DRW".toList
  | .skp => "SKP".toList
  | .sknp => "SKNP".toList

/-- The mnemonic a word spells. -/
def mnemonicOf (t : Text) : Option Mnemonic := Mnemonic.all.find? fun m => m.spelling == t

/-- The digits, in order. -/
def digits : Text := "0123456789ABCDEF".toList

/-- A digit as a character. -/
def digitChar (d : Nibble) : Char := digits.getD d.toNat '0'

/-- The value of a digit in a base up to sixteen; small letters count as capitals (assumption log 26). -/
def digitValue (base : Nat) (c : Char) : Option Nat :=
  match (digits.take base).findIdx? (· == c.toUpper) with
  | some v => some v
  | none => none

/-- The value of digits, the most significant first, after `acc`. -/
def digitsValue (base acc : Nat) : Text → Option Nat
  | [] => some acc
  | c :: cs =>
    match digitValue base c with
    | some v => digitsValue base (acc * base + v) cs
    | none => none

/-- A number: hexadecimal with `0x`, or decimal without (30 R79). -/
def numberOf : Text → Option Nat
  | '0' :: 'x' :: c :: cs => digitsValue 16 0 (c :: cs)
  | c :: cs => digitsValue 10 0 (c :: cs)
  | [] => none

/-! ### Operands (30 R75, R79) -/

/-- An operand, a label already replaced by its address. -/
inductive Operand where
  | reg (x : Reg)
  | num (n : Nat)
  | i
  | dt
  | st
  | k
  | f
  | b
  | memI
  deriving DecidableEq, Repr

/-- Labels and their addresses. -/
abbrev Symbols := List (Text × Nat)

/-- The keywords of 30 R79. -/
def keywords : List (Text × Operand) :=
  [("I".toList, .i), ("DT".toList, .dt), ("ST".toList, .st), ("K".toList, .k), ("F".toList, .f), ("B".toList, .b),
    ("[I]".toList, .memI)]

/-- `V` and one hex digit (30 R79). -/
def registerOf : Text → Option Reg
  | ['V', c] =>
    match digitValue 16 c with
    | some v => if h : v < 16 then some ⟨v, h⟩ else none
    | none => none
  | _ => none

/-- A word as an operand: a keyword, a register, a number, or a label. -/
def operandOf (symbols : Symbols) (t : Text) : Option Operand :=
  match keywords.lookup t with
  | some o => some o
  | none =>
    match registerOf t with
    | some x => some (.reg x)
    | none =>
      match numberOf t with
      | some n => some (.num n)
      | none => (symbols.lookup t).map .num

/-- All the words as operands. -/
def operandsOf (symbols : Symbols) : List Text → Option (List Operand)
  | [] => some []
  | t :: ts =>
    match operandOf symbols t, operandsOf symbols ts with
    | some o, some os => some (o :: os)
    | _, _ => none

/-- A number as a field of `w` bits; none when it does not fit. -/
def fieldValue (w n : Nat) : Option (BitVec w) := if n < 2 ^ w then some (BitVec.ofNat w n) else none

/-! ### The operand shapes select the row (30 R75, R79) -/

/-- `LD`, by the shape of its two operands. -/
def instrOfLd : Operand → Operand → Option Instr
  | .reg x, .num n => (fieldValue 8 n).map (.ldVxKk x)
  | .reg x, .reg y => some (.ldVxVy x y)
  | .i, .num n => (fieldValue 12 n).map .ldINnn
  | .reg x, .dt => some (.ldVxDt x)
  | .reg x, .k => some (.ldVxK x)
  | .dt, .reg x => some (.ldDtVx x)
  | .st, .reg x => some (.ldStVx x)
  | .f, .reg x => some (.ldFVx x)
  | .b, .reg x => some (.ldBVx x)
  | .memI, .reg x => some (.ldMemIVx x)
  | .reg x, .memI => some (.ldVxMemI x)
  | _, _ => none

/-- The instruction of a mnemonic with operands; `SHR Vx` and `SHL Vx` have y = 0 (30 R79). -/
def instrOf : Mnemonic → List Operand → Option Instr
  | .cls, [] => some .cls
  | .ret, [] => some .ret
  | .jp, [.num n] => (fieldValue 12 n).map .jpNnn
  | .jp, [.reg x, .num n] => if x = 0 then (fieldValue 12 n).map .jpV0Nnn else none
  | .call, [.num n] => (fieldValue 12 n).map .callNnn
  | .se, [.reg x, .num n] => (fieldValue 8 n).map (.seVxKk x)
  | .se, [.reg x, .reg y] => some (.seVxVy x y)
  | .sne, [.reg x, .num n] => (fieldValue 8 n).map (.sneVxKk x)
  | .sne, [.reg x, .reg y] => some (.sneVxVy x y)
  | .ld, [p, q] => instrOfLd p q
  | .add, [.reg x, .num n] => (fieldValue 8 n).map (.addVxKk x)
  | .add, [.reg x, .reg y] => some (.addVxVy x y)
  | .add, [.i, .reg x] => some (.addIVx x)
  | .or, [.reg x, .reg y] => some (.orVxVy x y)
  | .and, [.reg x, .reg y] => some (.andVxVy x y)
  | .xor, [.reg x, .reg y] => some (.xorVxVy x y)
  | .sub, [.reg x, .reg y] => some (.subVxVy x y)
  | .shr, [.reg x] => some (.shrVx x 0)
  | .subn, [.reg x, .reg y] => some (.subnVxVy x y)
  | .shl, [.reg x] => some (.shlVx x 0)
  | .rnd, [.reg x, .num n] => (fieldValue 8 n).map (.rndVxKk x)
  | .drw, [.reg x, .reg y, .num n] => (fieldValue 4 n).map (.drwVxVyN x y)
  | .skp, [.reg x] => some (.skpVx x)
  | .sknp, [.reg x] => some (.sknpVx x)
  | _, _ => none

/-! ### Lines -/

/-- Blanks, and the comma that "is accepted and ignored" (30 R79). -/
def isBlank (c : Char) : Bool := c == ' ' || c == '\t' || c == ','

/-- The pieces of a text between separators, empty ones left out; `word` is the piece begun. -/
def pieces (sep : Char → Bool) (word : Text) : Text → List Text
  | [] => if word.isEmpty then [] else [word]
  | c :: cs =>
    if sep c then (if word.isEmpty then pieces sep [] cs else word :: pieces sep [] cs)
    else pieces sep (word ++ [c]) cs

/-- The words of a line. -/
def wordsOf (line : Text) : List Text := pieces isBlank [] line

/-- A name followed by `:` (30 R79). -/
def labelOf (t : Text) : Option Text :=
  match t.reverse with
  | ':' :: c :: cs => some (c :: cs).reverse
  | _ => none

/-- What is wrong with a text. -/
inductive AsmError where
  /-- not a mnemonic, not `DB` -/
  | unknownMnemonic (t : Text)
  /-- an operand that is no keyword, register, number or label, no row of 30 R75 of this shape, or a number that does
  not fit its field -/
  | badOperands (t : Text)
  /-- a label defined twice -/
  | duplicateLabel (t : Text)
  deriving DecidableEq, Repr

/-- The bytes of one statement: an instruction, or a data byte `DB 0x..` (30 R79). -/
def assembleWords (symbols : Symbols) : List Text → Except AsmError (List Byte)
  | [] => .ok []
  | t :: ts =>
    if t == "DB".toList then
      match operandsOf symbols ts with
      | some [.num n] =>
        match fieldValue 8 n with
        | some b => .ok [b]
        | none => .error (.badOperands t)
      | _ => .error (.badOperands t)
    else
      match mnemonicOf t with
      | none => .error (.unknownMnemonic t)
      | some m =>
        match operandsOf symbols ts with
        | none => .error (.badOperands t)
        | some os =>
          match instrOf m os with
          | some i => .ok (encodeBytes i)
          | none => .error (.badOperands t)

/-- A line's labels at its front, taken off: each stands for the line's address. -/
def takeLabels (a : Nat) (symbols : Symbols) : List Text → Except AsmError (Symbols × List Text)
  | [] => .ok (symbols, [])
  | t :: ts =>
    match labelOf t with
    | none => .ok (symbols, t :: ts)
    | some name =>
      if (symbols.lookup name).isSome then .error (.duplicateLabel name)
      else takeLabels a ((name, a) :: symbols) ts

/-- How many bytes a statement takes: one for `DB`, two for an instruction (30 R70). -/
def sizeOfWords : List Text → Nat
  | [] => 0
  | t :: _ => if t == "DB".toList then 1 else 2

/-- First pass: the labels, and the statements without them. -/
def collect (a : Nat) (symbols : Symbols) : List Text → Except AsmError (Symbols × List (List Text))
  | [] => .ok (symbols, [])
  | line :: lines =>
    match takeLabels a symbols (wordsOf line) with
    | .error e => .error e
    | .ok (symbols', ws) =>
      match collect (a + sizeOfWords ws) symbols' lines with
      | .error e => .error e
      | .ok (all, rest) => .ok (all, ws :: rest)

/-- Second pass: the bytes of every statement. -/
def assembleAll (symbols : Symbols) : List (List Text) → Except AsmError (List Byte)
  | [] => .ok []
  | ws :: rest =>
    match assembleWords symbols ws, assembleAll symbols rest with
    | .ok bytes, .ok more => .ok (bytes ++ more)
    | .error e, _ => .error e
    | _, .error e => .error e

/-- The bytes of a program, whose first byte will stand at `base`: one instruction per line (30 R79). -/
def assembleAt (base : Nat) (text : Text) : Except AsmError (List Byte) :=
  match collect base [] (pieces (· == '\n') [] text) with
  | .error e => .error e
  | .ok (symbols, statements) => assembleAll symbols statements

/-- The ROM bytes of a program, loaded at PROG_BASE (00 R5). -/
def assemble (text : Text) : Except AsmError (List Byte) := assembleAt 0x200 text

/-! ### Printing -/

/-- `V0` to `VF`. -/
def registerText (x : Reg) : Text := ['V', digitChar (fieldOf x)]

/-- `0x` and two digits. -/
def byteText (b : Byte) : Text := ['0', 'x', digitChar (b.extractLsb' 4 4), digitChar (b.extractLsb' 0 4)]

/-- `0x` and three digits. -/
def addrText (a : Addr) : Text :=
  ['0', 'x', digitChar (a.extractLsb' 8 4), digitChar (a.extractLsb' 4 4), digitChar (a.extractLsb' 0 4)]

/-- `0x` and one digit. -/
def nibbleText (n : Nibble) : Text := ['0', 'x', digitChar n]

/-- The words of an instruction: the column "mnemonic and operands" of 30 R75. -/
def instrWords : Instr → List Text
  | .cls => ["CLS".toList]
  | .ret => ["RET".toList]
  | .jpNnn a => ["JP".toList, addrText a]
  | .callNnn a => ["CALL".toList, addrText a]
  | .seVxKk x kk => ["SE".toList, registerText x, byteText kk]
  | .sneVxKk x kk => ["SNE".toList, registerText x, byteText kk]
  | .seVxVy x y => ["SE".toList, registerText x, registerText y]
  | .ldVxKk x kk => ["LD".toList, registerText x, byteText kk]
  | .addVxKk x kk => ["ADD".toList, registerText x, byteText kk]
  | .ldVxVy x y => ["LD".toList, registerText x, registerText y]
  | .orVxVy x y => ["OR".toList, registerText x, registerText y]
  | .andVxVy x y => ["AND".toList, registerText x, registerText y]
  | .xorVxVy x y => ["XOR".toList, registerText x, registerText y]
  | .addVxVy x y => ["ADD".toList, registerText x, registerText y]
  | .subVxVy x y => ["SUB".toList, registerText x, registerText y]
  | .shrVx x _ => ["SHR".toList, registerText x]
  | .subnVxVy x y => ["SUBN".toList, registerText x, registerText y]
  | .shlVx x _ => ["SHL".toList, registerText x]
  | .sneVxVy x y => ["SNE".toList, registerText x, registerText y]
  | .ldINnn a => ["LD".toList, "I".toList, addrText a]
  | .jpV0Nnn a => ["JP".toList, "V0".toList, addrText a]
  | .rndVxKk x kk => ["RND".toList, registerText x, byteText kk]
  | .drwVxVyN x y n => ["DRW".toList, registerText x, registerText y, nibbleText n]
  | .skpVx x => ["SKP".toList, registerText x]
  | .sknpVx x => ["SKNP".toList, registerText x]
  | .ldVxDt x => ["LD".toList, registerText x, "DT".toList]
  | .ldVxK x => ["LD".toList, registerText x, "K".toList]
  | .ldDtVx x => ["LD".toList, "DT".toList, registerText x]
  | .ldStVx x => ["LD".toList, "ST".toList, registerText x]
  | .addIVx x => ["ADD".toList, "I".toList, registerText x]
  | .ldFVx x => ["LD".toList, "F".toList, registerText x]
  | .ldBVx x => ["LD".toList, "B".toList, registerText x]
  | .ldMemIVx x => ["LD".toList, "[I]".toList, registerText x]
  | .ldVxMemI x => ["LD".toList, registerText x, "[I]".toList]

/-- An instruction as a line: its words with a blank between them. -/
def instrText (i : Instr) : Text := [' '].intercalate (instrWords i)

/-- What the notation keeps of an instruction: all but the ignored `y` of a shift (30 R79, R81). -/
def withoutIgnoredY : Instr → Instr
  | .shrVx x _ => .shrVx x 0
  | .shlVx x _ => .shlVx x 0
  | i => i

end Sys2Proof.Asm
end

