-- ==== Sys2Proof/Machine/Outputs.lean ====
section
/-! DEFINITION. The outputs (spec 10 R37; 43 R155; 60 R219, R220): functions of the state, read without side effect. -/

namespace Sys2Proof.Machine

/-- `fb_out[2047:0]`: bit `64*y + x` is `fb[y][x]` (10 R37; 92 D26). -/
def State.fbOut (s : State) : BitVec 2048 :=
  BitVec.ofNat 2048 (s.fb.toList.foldr (fun row above => row.toNat + 2 ^ 64 * above) 0)

/-- `sound_on`: ST > 0 (10 R28, R37). -/
def State.soundOn (s : State) : Bool := decide (0 < s.st.toNat)

/-- `waiting`: the run state is AwaitingKey (10 R37). -/
def State.waiting (s : State) : Bool :=
  match s.run with
  | .awaitingKey _ => true
  | _ => false

/-- The code of a cause (60 R201; 92 D17). -/
def faultCode : Fault → BitVec 3
  | .romTooLarge => 1
  | .unrecognizedOpcode => 2
  | .stackOverflow => 3
  | .stackUnderflow => 4
  | .addressOutOfRange => 5
  | .keyIndexOutOfRange => 6

/-- The fault record, when there is one (10 R31). -/
def State.faultRecord (s : State) : Option FaultRecord :=
  match s.run with
  | .faulted rec => some rec
  | _ => none

/-- `fault_valid` (10 R37). -/
def State.faultValid (s : State) : Bool := s.faultRecord.isSome

/-- `fault_cause`: the code, 0 when there is no fault (10 R37; 92 D17). -/
def State.faultCause (s : State) : BitVec 3 :=
  match s.faultRecord with
  | some rec => faultCode rec.cause
  | none => 0

/-- `fault_iaddr` (10 R37). -/
def State.faultIaddr (s : State) : Option Word := s.faultRecord.bind (·.iaddr)

/-- `fault_opcode` (10 R37). -/
def State.faultOpcode (s : State) : Option Word := s.faultRecord.bind (·.opcode)

/-- `fault_info` (10 R37). -/
def State.faultInfo (s : State) : Option Nat := s.faultRecord.bind (·.info)

end Sys2Proof.Machine
end

