-- ==== Sys2Proof/Safety.lean ====
section
/-! DEFINITION. What counts as a safe run, in the terms statements use: no fault raised (spec 60 R200), the end of a run
(70 R235), and what holds of every state a step can lead to from a state where it holds (10 R25, R26, R31; 60 R201). -/

namespace Sys2Proof.Machine

/-- No fault has been raised (60 R200). -/
def State.unfaulted (s : State) : Bool := !s.isFaulted

/-- The run has ended normally at `e`: Running, pc = e, and the word at `e`, whose two bytes exist, jumps to itself
(70 R235). -/
def State.endedNormally (s : State) (e : Addr) : Bool :=
  (s.run == .running) && (s.pc == immAddr e) && decide (e.toNat ≤ 0xFFE) &&
    (wordOfBytes (s.readByte e.toNat) (s.readByte (e.toNat + 1)) == 0x1000#16 + immAddr e)

/-- pc never exceeds 0x10FE (10 R25). -/
def State.pcInRange (s : State) : Prop := s.pc.toNat ≤ 0x10FE

/-- A live stack slot holds an address a CALL pushed, at most 0x1000 (10 R25, R26). -/
def State.stackInRange (s : State) : Prop := ∀ j : Fin 16, j.val < s.sp.val → (s.stack.get j).toNat ≤ 0x1000

/-- The instructions that access memory through I (60 R206). -/
def accessesIndex : Instr → Bool
  | .drwVxVyN _ _ _ => true
  | .ldBVx _ => true
  | .ldMemIVx _ => true
  | .ldVxMemI _ => true
  | _ => false

/-- The fault record has the form its cause gives it: the columns `opcode` and `info` of 60 R201, and an instruction
address that a fetch can have used (40 R100). -/
def FaultRecord.wellFormed (rec : FaultRecord) : Prop :=
  match rec.cause with
  | .romTooLarge =>
    rec.iaddr = none ∧ rec.opcode = none ∧ ∃ len, rec.info = some len ∧ 0xE00 < len
  | .unrecognizedOpcode =>
    ∃ a op, rec.iaddr = some a ∧ a.toNat ≤ 0xFFE ∧ rec.opcode = some op ∧ recognized op = false ∧ rec.info = none
  | .stackOverflow =>
    ∃ a nnn, rec.iaddr = some a ∧ a.toNat ≤ 0xFFE ∧ rec.opcode = some (encode (.callNnn nnn)) ∧ rec.info = none
  | .stackUnderflow =>
    ∃ a, rec.iaddr = some a ∧ a.toNat ≤ 0xFFE ∧ rec.opcode = some (encode .ret) ∧ rec.info = none
  | .addressOutOfRange =>
    ∃ a info, rec.iaddr = some a ∧ rec.info = some info ∧ 0x1000 ≤ info ∧
      ((0xFFE < a.toNat ∧ rec.opcode = none ∧ info = max a.toNat 0x1000) ∨
        (a.toNat ≤ 0xFFE ∧ ∃ i : Instr, accessesIndex i = true ∧ rec.opcode = some (encode i)))
  | .keyIndexOutOfRange =>
    ∃ a x k, rec.iaddr = some a ∧ a.toNat ≤ 0xFFE ∧
      (rec.opcode = some (encode (.skpVx x)) ∨ rec.opcode = some (encode (.sknpVx x))) ∧
      rec.info = some k ∧ 0xF < k ∧ k ≤ 0xFF

/-- Whatever record the run state holds has the form its cause gives it. -/
def State.recordWellFormed (s : State) : Prop :=
  match s.run with
  | .faulted rec => rec.wellFormed
  | _ => True

/-- The invariant of the machine. -/
structure State.Inv (s : State) : Prop where
  /-- memory is in its canonical form -/
  memory : s.mem.wf = true
  /-- 10 R25 -/
  pcRange : s.pcInRange
  /-- 10 R25, R26 -/
  stackRange : s.stackInRange
  /-- 10 R31, 60 R201 -/
  record : s.recordWellFormed

end Sys2Proof.Machine
end

