-- ==== Sys2Proof/Certificates/Slice0/Obligations.lean ====
section
/-! DEFINITION. The statements for the provers. A statement about an instruction is about `exec`, which runs with pc
already at A + 2 (spec 40 R100); `CycleFollowsItsRunState` and `StepRunsDecodedInstruction` carry it to `step`.
"The machine's fields" are those of 10 R20; the driver's fields (queue, boot phase, step counter) are the model's own. -/

open Sys2Proof Sys2Proof.Machine

/-! ### The words the statements are written with -/

namespace Sys2Proof.Spec

/-- The pieces of state of 10 R20, and the model's own driver fields as one. -/
inductive Field where
  | v | i | pc | stack | sp | dt | st | fb | mem | run | driver
  deriving DecidableEq, Repr

/-- The field is the same in `t` as in `s`; memory is compared byte by byte. -/
def Field.same (s t : State) : Field → Prop
  | .v => ∀ z, t.getV z = s.getV z
  | .i => t.i = s.i
  | .pc => t.pc = s.pc
  | .stack => ∀ m, t.stack.get m = s.stack.get m
  | .sp => t.sp = s.sp
  | .dt => t.dt = s.dt
  | .st => t.st = s.st
  | .fb => ∀ cx cy, pixel t.fb cx cy = pixel s.fb cx cy
  | .mem => ∀ a, t.readByte a = s.readByte a
  | .run => t.run = s.run
  | .driver => t.pending = s.pending ∧ t.phase = s.phase ∧ t.steps = s.steps

/-- Every field outside the list is the same. -/
def changesOnly (fs : List Field) (s t : State) : Prop := ∀ f, f ∉ fs → f.same s t

/-- Every register outside the list is the same. -/
def regsOnly (zs : List Reg) (s t : State) : Prop := ∀ z, z ∉ zs → t.getV z = s.getV z

/-- Every byte outside the `n` bytes from `base` is the same. -/
def bytesOnly (base n : Nat) (s t : State) : Prop :=
  ∀ a, (a < base ∨ base + n ≤ a) → t.readByte a = s.readByte a

/-- The step's trigger is a `cpu_cycle`. -/
def isCycle (s : State) : Prop := ∃ keys rnd, s.trigger = .cpuCycle keys rnd

/-- The word at pc, the high byte at the lower address. -/
def wordAtPc (s : State) : Word := wordOfBytes (s.readByte s.pc.toNat) (s.readByte (s.pc.toNat + 1))

/-- The state in which a Running cycle executes the word it fetched: started, pc advanced. -/
def atExecute (s : State) : State := (s.setPhase .started).advance

/-- `t` is `s` with the fault taken: the run state and nothing else. -/
def faultTaken (s t : State) (cause : Fault) (iaddr opcode : Option Word) (info : Option Nat) : Prop :=
  t.run = .faulted ⟨cause, iaddr, opcode, info⟩ ∧ changesOnly [.run] s t

/-- A row of a sprite, `rows`, sets the cell (cx, cy) when drawn at (x, y) (43 R151). -/
def spriteSets (x y : Nat) (rows : List Byte) (cx : Fin 64) (cy : Fin 32) : Prop :=
  ∃ row col : Nat, ∃ h : row < rows.length, col < 8 ∧ rows[row].getLsbD (7 - col) = true ∧
    cx.val = (x + col) % 64 ∧ cy.val = (y + row) % 32

/-- The bytes of the sprite DRW reads: `n` bytes from I (43 R151). -/
def spriteRows (s : State) (n : Nibble) : List Byte :=
  (List.range n.toNat).map fun k => s.readByte (s.i.toNat + k)

/-- The fields the "w" entries of 10 R41 allow an instruction to write. -/
def writes : Instr → List Field
  | .cls => [.fb]
  | .ret => [.pc, .stack, .sp]
  | .jpNnn _ => [.pc]
  | .callNnn _ => [.pc, .stack, .sp]
  | .seVxKk _ _ => [.pc]
  | .sneVxKk _ _ => [.pc]
  | .seVxVy _ _ => [.pc]
  | .ldVxKk _ _ => [.v]
  | .addVxKk _ _ => [.v]
  | .ldVxVy _ _ => [.v]
  | .orVxVy _ _ => [.v]
  | .andVxVy _ _ => [.v]
  | .xorVxVy _ _ => [.v]
  | .addVxVy _ _ => [.v]
  | .subVxVy _ _ => [.v]
  | .shrVx _ _ => [.v]
  | .subnVxVy _ _ => [.v]
  | .shlVx _ _ => [.v]
  | .sneVxVy _ _ => [.pc]
  | .ldINnn _ => [.i]
  | .jpV0Nnn _ => [.pc]
  | .rndVxKk _ _ => [.v]
  | .drwVxVyN _ _ _ => [.v, .fb]
  | .skpVx _ => [.pc]
  | .sknpVx _ => [.pc]
  | .ldVxDt _ => [.v]
  | .ldVxK _ => [.run]
  | .ldDtVx _ => [.dt]
  | .ldStVx _ => [.st]
  | .addIVx _ => [.i]
  | .ldFVx _ => [.i]
  | .ldBVx _ => [.mem]
  | .ldMemIVx _ => [.mem]
  | .ldVxMemI _ => [.v]

/-- The registers the "w" entries of the columns V and VF of 10 R41 name. -/
def writesRegs : Instr → List Reg
  | .ldVxKk x _ => [x]
  | .addVxKk x _ => [x]
  | .ldVxVy x _ => [x]
  | .orVxVy x _ => [x]
  | .andVxVy x _ => [x]
  | .xorVxVy x _ => [x]
  | .addVxVy x _ => [x, 0xF]
  | .subVxVy x _ => [x, 0xF]
  | .shrVx x _ => [x, 0xF]
  | .subnVxVy x _ => [x, 0xF]
  | .shlVx x _ => [x, 0xF]
  | .rndVxKk x _ => [x]
  | .drwVxVyN _ _ _ => [0xF]
  | .ldVxDt x => [x]
  | .ldVxMemI x => (List.finRange 16).filter fun z => z.val ≤ x.val
  | _ => []

/-- How many bytes from I on the "w" entries of the column mem of 10 R41 stand for (45 R181, R182). -/
def writesBytes : Instr → Nat
  | .ldBVx _ => 3
  | .ldMemIVx x => x.val + 1
  | _ => 0

/-- The byte at `a` after Fx33 with its addresses valid (45 R181). -/
def byteAfterDigits (x : Reg) (s : State) (a : Nat) : Byte :=
  if a = s.i.toNat then BitVec.ofNat 8 ((s.getV x).toNat / 100)
  else if a = s.i.toNat + 1 then BitVec.ofNat 8 ((s.getV x).toNat / 10 % 10)
  else if a = s.i.toNat + 2 then BitVec.ofNat 8 ((s.getV x).toNat % 10)
  else s.readByte a

/-- The byte at `a` after Fx55 with its addresses valid (45 R182). -/
def byteAfterDump (x : Reg) (s : State) (a : Nat) : Byte :=
  if s.i.toNat ≤ a ∧ a ≤ s.i.toNat + x.val then s.getV (Fin.ofNat 16 (a - s.i.toNat)) else s.readByte a

/-- The fault an instruction raises in a state, with its `info`, by the conditions of 60 R201 and R206. -/
def faultOf (i : Instr) (s : State) : Option (Fault × Option Nat) :=
  match i with
  | .ret => if s.sp.val = 0 then some (.stackUnderflow, none) else none
  | .callNnn _ => if s.sp.val = 16 then some (.stackOverflow, none) else none
  | .drwVxVyN _ _ n =>
    if 0 < n.toNat ∧ 0xFFF < s.i.toNat + n.toNat - 1 then some (.addressOutOfRange, some (max s.i.toNat 0x1000)) else none
  | .ldBVx _ => if 0xFFF < s.i.toNat + 2 then some (.addressOutOfRange, some (max s.i.toNat 0x1000)) else none
  | .ldMemIVx x => if 0xFFF < s.i.toNat + x.val then some (.addressOutOfRange, some (max s.i.toNat 0x1000)) else none
  | .ldVxMemI x => if 0xFFF < s.i.toNat + x.val then some (.addressOutOfRange, some (max s.i.toNat 0x1000)) else none
  | .skpVx x => if 0xF < (s.getV x).toNat then some (.keyIndexOutOfRange, some (s.getV x).toNat) else none
  | .sknpVx x => if 0xF < (s.getV x).toNat then some (.keyIndexOutOfRange, some (s.getV x).toNat) else none
  | _ => none

/-- The instructions that sample the keys (10 R34). -/
def samplesKeys : Instr → Bool
  | .skpVx _ => true
  | .sknpVx _ => true
  | _ => false

/-- The instruction that samples the random byte (10 R35). -/
def samplesRnd : Instr → Bool
  | .rndVxKk _ _ => true
  | _ => false

/-- The state with another driver's queue and another step counter. -/
def withDriver (s : State) (pending : List Trigger) (steps : Nat) : State :=
  { s with pending := pending, steps := steps }

/-- The words of 30 R76: what is not an instruction, group by group. -/
def listedUnrecognized (op : Word) : Prop :=
  (op.toNat / 4096 = 0x0 ∧ op ≠ 0x00E0 ∧ op ≠ 0x00EE) ∨
  ((op.toNat / 4096 = 0x5 ∨ op.toNat / 4096 = 0x9) ∧ op.toNat % 16 ≠ 0) ∨
  (op.toNat / 4096 = 0x8 ∧ op.toNat % 16 ∈ [0x8, 0x9, 0xA, 0xB, 0xC, 0xD, 0xF]) ∨
  (op.toNat / 4096 = 0xE ∧ op.toNat % 256 ∉ [0x9E, 0xA1]) ∨
  (op.toNat / 4096 = 0xF ∧ op.toNat % 256 ∉ [0x07, 0x0A, 0x15, 0x18, 0x1E, 0x29, 0x33, 0x55, 0x65])

end Sys2Proof.Spec

open Sys2Proof.Spec

/-! ### Encoding -/

/-- Decode and encode agree for every instruction, and the decoder consumes exactly its two bytes.
30 R70, R72, R74, R75. The numeric patterns rest on the spec's decision D5 (assumption log 4). -/
def Obligations.DecodeOfEncodeIsTheInstruction : Prop :=
  ∀ i : Instr, i.wellFormed = true →
    decodeWord (encode i) = .ok i ∧ ∀ rest, decode (encodeBytes i ++ rest) = .ok (i, rest)

/-- A word that decodes is the encoding of what it decodes to: no bit is dropped, the ignored `y` of 8xy6 and 8xyE
included. 30 R74, R81 (D5, D7; assumption log 4, 19). -/
def Obligations.EncodeOfDecodeIsTheWord : Prop :=
  ∀ op i, decodeWord op = .ok i → encode i = op

/-- The decoder decodes exactly the words some row of the opcode map admits; every other word is unrecognized, by name;
and those are exactly the words 30 R76 lists. 30 R74, R75, R76 (D5, D6; assumption log 4, 20). -/
def Obligations.DecoderRejectsExactlyTheListedWords : Prop :=
  ∀ op, ((∃ i, decodeWord op = .ok i) ↔ recognized op = true) ∧
    (recognized op = false ↔ listedUnrecognized op) ∧
    (recognized op = false → decodeWord op = .error (.unrecognized op))

/-- The 34 (match, mask) pairs are pairwise disjoint: no word matches two rows. 30 R74 ("pairwise disjoint", derived
there from R75; D5). -/
def Obligations.OpcodeRowsAreDisjoint : Prop :=
  opcodeMap.length = 34 ∧ opcodeMap.Pairwise fun r q => ∀ op, (r.admits op && q.admits op) = false

/-- Words written out from the patterns of 30 R75, one a family and more where a group holds several (sanity; D5). -/
def Obligations.WordsOfTheOpcodeMapDecode : Prop :=
  decodeTableWord 16 0x00E0 = some .cls ∧ decodeTableWord 16 0x00EE = some .ret ∧
  decodeTableWord 16 0x2ABC = some (.callNnn 0xABC) ∧ decodeTableWord 16 0x3A42 = some (.seVxKk 0xA 0x42) ∧
  decodeTableWord 16 0x81E6 = some (.shrVx 1 0xE) ∧ decodeTableWord 16 0x8017 = some (.subnVxVy 0 1) ∧
  decodeTableWord 16 0xA123 = some (.ldINnn 0x123) ∧ decodeTableWord 16 0xC30F = some (.rndVxKk 3 0x0F) ∧
  decodeTableWord 16 0xD125 = some (.drwVxVyN 1 2 5) ∧ decodeTableWord 16 0xE2A1 = some (.sknpVx 2) ∧
  decodeTableWord 16 0xF10A = some (.ldVxK 1) ∧ decodeTableWord 16 0xF255 = some (.ldMemIVx 2) ∧
  decodeTableWord 16 0x0000 = none ∧ decodeTableWord 16 0x5001 = none ∧ decodeTableWord 16 0xF075 = none

/-- Every instruction written down in the notation, and assembled again, gives its two bytes; the `y` a shift ignores is
not written and assembles as 0. 30 R79, R81 (the notation: D27; assumption log 26). -/
def Obligations.AssembleOfTextIsTheEncoding : Prop :=
  ∀ i : Instr, Asm.assemble (Asm.instrText i) = .ok (encodeBytes (Asm.withoutIgnoredY i))

/-- The fields of a word as numbers, and how they overlap. 30 R71. -/
def Obligations.FieldsOfAWord : Prop :=
  ∀ op : Word, (opGroup op).toNat = op.toNat / 4096 ∧ (opX op).toNat = op.toNat / 256 % 16 ∧
    (opY op).toNat = op.toNat / 16 % 16 ∧ (opN op).toNat = op.toNat % 16 ∧
    (opKk op).toNat = op.toNat % 256 ∧ (opNnn op).toNat = op.toNat % 4096 ∧
    opKk op = opY op ++ opN op ∧ opNnn op = opX op ++ opY op ++ opN op

/-! ### Reset and boot -/

/-- The state after reset. 10 R39. The model follows the spec's decisions D1 (pc), D3 (font bytes), D4 (zeros of memory)
and D16 (Running): assumption log 5, 7, 8. Nothing is said of the driver's fields. -/
def Obligations.ResetState : Prop :=
  (∀ a, a < 80 → State.reset.readByte a = fontTable.getD a 0) ∧
  (∀ a, 80 ≤ a → a ≤ 0xFFF → State.reset.readByte a = 0) ∧
  (∀ z, State.reset.getV z = 0) ∧ State.reset.i = 0 ∧ State.reset.pc = 0x200 ∧ State.reset.sp.val = 0 ∧
  (∀ m, State.reset.stack.get m = 0) ∧ State.reset.dt = 0 ∧ State.reset.st = 0 ∧
  (∀ cx cy, pixel State.reset.fb cx cy = false) ∧ State.reset.run = .running

/-- A reset trigger, in any state, puts every machine field at its reset value, and the boot order starts anew.
70 R230 (re-application: D34; assumption log 23). -/
def Obligations.ResetFromAnyState : Prop :=
  ∀ s, s.trigger = .reset → ∃ t, step s = .next t ∧ changesOnly [.driver] State.reset t ∧ t.phase = .fresh

/-- `load_rom`: more than 0xE00 bytes are rejected with nothing copied, cause 1 and the length in the record; otherwise
the bytes stand at 0x200 and up and nothing else of the machine changes. 70 R232, 60 R202. -/
def Obligations.LoadRomIsAllOrNothing : Prop :=
  ∀ s bytes, s.trigger = .loadRom bytes → s.phase = .fresh → s.isFaulted = false → s.mem.wf = true →
    ∃ t, step s = .next t ∧
      (0xE00 < bytes.length → t.run = .faulted ⟨.romTooLarge, none, none, some bytes.length⟩ ∧
        changesOnly [.run, .driver] s t) ∧
      (bytes.length ≤ 0xE00 → changesOnly [.mem, .driver] s t ∧ bytesOnly 0x200 bytes.length s t ∧
        ∀ k (h : k < bytes.length), t.readByte (0x200 + k) = bytes[k])

/-- A second load, a load after the first cycle and a load in Faulted are refused by name; and once a load or a Running
cycle was performed, only a reset makes a load possible again. 70 R233, R241 (D29; assumption log 11). -/
def Obligations.LateLoadRomIsRefused : Prop :=
  (∀ s bytes, s.trigger = .loadRom bytes → (s.phase ≠ .fresh ∨ s.isFaulted = true) →
    step s = .refused .loadRomRefused) ∧
  (∀ s t, step s = .next t →
    (s.phase ≠ .fresh ∨ (∃ bytes, s.trigger = .loadRom bytes) ∨ (isCycle s ∧ s.run = .running)) →
    s.trigger ≠ .reset → t.phase ≠ .fresh)

/-! ### The cycle -/

/-- A step whose cycle finds, in Running, the word of an instruction at pc is that instruction's `exec`, with pc
advanced and the boot phase at started; around it the step only takes its trigger off the driver's queue
(`finishStep`). 40 R100 (the advance is made before `exec`: assumption log 25). -/
def Obligations.StepRunsDecodedInstruction : Prop :=
  ∀ s i rest, isCycle s → s.run = .running → s.pc.toNat ≤ 0xFFE → i.wellFormed = true →
    decode [s.readByte s.pc.toNat, s.readByte (s.pc.toNat + 1)] = .ok (i, rest) →
    step s = finishStep (exec i (atExecute s))

/-- One `cpu_cycle`, by run state: nothing in Faulted; the poll in AwaitingKey; in Running the fetch fault when a byte
of the word does not exist (pc unchanged), else the big-endian word, pc + 2, and either UnrecognizedOpcode or the
instruction. 40 R100, 60 R203, R206, R210. That a cycle in Faulted is a step that changes nothing of the machine (R100
says "no step") is the model's choice between the two forms of 93 U15 (D16; assumption log 9), and what the records hold
is D18 (assumption log 10). -/
def Obligations.CycleFollowsItsRunState : Prop :=
  ∀ s, isCycle s →
    (∀ rec, s.run = .faulted rec → step s = .next s.consume) ∧
    (∀ r, s.run = .awaitingKey r → step s = .next (s.poll r).consume) ∧
    (s.run = .running → 0xFFE < s.pc.toNat → ∃ t, step s = .next t.consume ∧
      faultTaken (s.setPhase .started) t .addressOutOfRange (some s.pc) none (some (max s.pc.toNat 0x1000))) ∧
    (s.run = .running → s.pc.toNat ≤ 0xFFE → recognized (wordAtPc s) = false → ∃ t, step s = .next t.consume ∧
      faultTaken (atExecute s) t .unrecognizedOpcode (some s.pc) (some (wordAtPc s)) none) ∧
    (s.run = .running → s.pc.toNat ≤ 0xFFE → recognized (wordAtPc s) = true →
      ∃ i, decodeWord (wordAtPc s) = .ok i ∧ ∃ t, exec i (atExecute s) = .next t ∧ step s = .next t.consume)

/-- Every step answers a next state, but for a `load_rom` the host may not send. 60 R200, R210, 70 R241 (D16, D29;
assumption log 9, 11). That a cycle in Faulted answers a next state is the model's choice between the two forms of
93 U15: 40 R100 and 60 R224 (D16) say that it has no step (assumption log 9). -/
def Obligations.StepAnswersUnlessALoadIsRefused : Prop :=
  ∀ s, (∃ t, step s = .next t) ∨
    (step s = .refused .loadRomRefused ∧ (∃ bytes, s.trigger = .loadRom bytes) ∧
      (s.phase ≠ .fresh ∨ s.isFaulted = true))

/-- Every instruction answers a next state in every state: a fault is taken, not a stop. 60 R201, R210. -/
def Obligations.ExecAlwaysAnswers : Prop :=
  ∀ i s, ∃ t, exec i s = .next t

/-! ### Faults -/

/-- An instruction raises exactly the fault the table gives it, with the table's `info`, its own word and its address in
the record, and then changes nothing else; where the table gives none, it does not fault. 60 R201, R206, R209, R210,
R211 (faulting, the record and the key index: D14, D16, D18; assumption log 9, 10, 12; the address pc - 2 and the word
`encode i` are the model's deduction, assumption log 10). -/
def Obligations.FaultsAreThoseOfTheTable : Prop :=
  ∀ i s, s.run = .running → ∃ t, exec i s = .next t ∧
    (∀ cause info, faultOf i s = some (cause, info) →
      faultTaken s t cause (some (s.pc - 2)) (some (encode i)) info) ∧
    (faultOf i s = none → t.isFaulted = false)

/-- A fault of a cycle that fetched at A records A and the fetched word, leaves pc at A + 2 and changes nothing else of
the machine. 60 R210, R211 (D16, D18; assumption log 9, 10). -/
def Obligations.FaultRecordNamesTheFetchedWord : Prop :=
  ∀ s t rec, isCycle s → s.run = .running → s.pc.toNat ≤ 0xFFE → step s = .next t → t.run = .faulted rec →
    rec.iaddr = some s.pc ∧ rec.opcode = some (wordAtPc s) ∧ t.pc = s.pc + 2 ∧
      changesOnly [.pc, .run, .driver] s t

/-- CALL with the stack at depth 16: StackOverflow, stack and sp unchanged, pc where the advance left it, not nnn.
60 R204 (the record: `FaultsAreThoseOfTheTable`). -/
def Obligations.CallOnAFullStackFaults : Prop :=
  ∀ nnn s, s.sp.val = 16 → ∃ t rec, exec (.callNnn nnn) s = .next t ∧
    t.run = .faulted rec ∧ rec.cause = .stackOverflow ∧ changesOnly [.run] s t

/-- RET with the stack at depth 0: StackUnderflow, sp stays 0, pc where the advance left it. 60 R205 (the record:
`FaultsAreThoseOfTheTable`). -/
def Obligations.RetOnAnEmptyStackFaults : Prop :=
  ∀ s, s.sp.val = 0 → ∃ t rec, exec .ret s = .next t ∧
    t.run = .faulted rec ∧ rec.cause = .stackUnderflow ∧ changesOnly [.run] s t

/-- There is no return from a fault and no nesting: in Faulted every step but a reset keeps the run state, the record
included; a cycle changes nothing of the machine; a reset discards the record and all else. 60 R212. -/
def Obligations.OnlyResetLeavesFaulted : Prop :=
  ∀ s t rec, s.run = .faulted rec → step s = .next t →
    (s.trigger ≠ .reset → t.run = .faulted rec) ∧
    (isCycle s → changesOnly [.driver] s t) ∧
    (s.trigger = .reset → t.run = .running ∧ changesOnly [.driver] State.reset t)

/-! ### Timers and the key wait -/

/-- The tick: both timers down by one, not below 0, in every run state, nothing else of the machine changed; and a timer
at v is 0 after v ticks and no sooner. 60 R215. -/
def Obligations.TimerTickCountsDownToZero : Prop :=
  (∀ s, s.trigger = .timerTick → ∃ t, step s = .next t ∧ t.dt.toNat = s.dt.toNat - 1 ∧
    t.st.toNat = s.st.toNat - 1 ∧ changesOnly [.dt, .st, .driver] s t) ∧
  (∀ s n, ((State.timerTick^[n]) s).dt.toNat = s.dt.toNat - n ∧ ((State.timerTick^[n]) s).st.toNat = s.st.toNat - n)

/-- The poll: with a key down, the lowest pressed index goes to the register and the machine runs again; with none,
nothing changes. 44 R166 (no wait for release: D15; assumption log 13). -/
def Obligations.PollStoresTheLowestPressedKey : Prop :=
  ∀ s r, isCycle s → s.run = .awaitingKey r → ∃ t, step s = .next t ∧
    (∀ k, k < 16 → s.keys.getLsbD k = true → (∀ j, j < k → s.keys.getLsbD j = false) →
      t.getV r = BitVec.ofNat 8 k ∧ regsOnly [r] s t ∧ t.run = .running ∧ changesOnly [.v, .run, .driver] s t) ∧
    ((∀ k, k < 16 → s.keys.getLsbD k = false) → changesOnly [.driver] s t)

/-- The whole key wait: Fx0A at A, then n polls with no key down, one for each byte of `rnds`, then one poll with a key
down: after these n + 2 cycles in all, the lowest pressed index is in Vx, pc is A + 2 and the machine is Running, whatever
random byte each cycle brings. 44 R163, R166 (D15, C2; assumption log 13). -/
def Obligations.KeyWaitEndsAtTheFirstPressedKey : Prop :=
  ∀ (s : State) (x : Reg) (k : Nat) (keys0 keys : BitVec 16) (rnd0 rnd : Byte) (rnds : List Byte) (rest : List Trigger),
    s.run = .running → s.pc.toNat ≤ 0xFFE → decodeWord (wordAtPc s) = .ok (.ldVxK x) →
    s.pending = .cpuCycle keys0 rnd0 :: (rnds.map (.cpuCycle 0) ++ .cpuCycle keys rnd :: rest) →
    k < 16 → keys.getLsbD k = true → (∀ j, j < k → keys.getLsbD j = false) →
    ∃ t, Host.Core.run Sys2Proof.core (rnds.length + 2) s = .next t ∧ t.run = .running ∧ t.pc = s.pc + 2 ∧
      t.getV x = BitVec.ofNat 8 k ∧ regsOnly [x] s t ∧ changesOnly [.v, .pc, .driver] s t ∧ t.pending = rest

/-- Fx07, Fx15 and Fx18 copy between a register and a timer, at once. 44 R162, R164, R165 (one counter per timer: D28;
assumption log 21). -/
def Obligations.TimerAccess : Prop :=
  ∀ x s,
    (∃ t, exec (.ldVxDt x) s = .next t ∧ t.getV x = s.dt ∧ regsOnly [x] s t ∧ changesOnly [.v] s t) ∧
    (∃ t, exec (.ldDtVx x) s = .next t ∧ t.dt = s.getV x ∧ changesOnly [.dt] s t) ∧
    (∃ t, exec (.ldStVx x) s = .next t ∧ t.st = s.getV x ∧ changesOnly [.st] s t)

/-- Fx0A enters the wait for its register and does nothing else; the keys are not looked at. 44 R163 (D15, C2;
assumption log 13). -/
def Obligations.KeyWaitIsEntered : Prop :=
  ∀ x s, ∃ t, exec (.ldVxK x) s = .next t ∧ t.run = .awaitingKey x ∧ changesOnly [.run] s t

/-- Ex9E and ExA1 with a key index: exactly one of them skips, by the level of the key sampled in this cycle, which is
the one the cycle's trigger brings. 44 R160, R161, 10 R34. -/
def Obligations.KeySkips : Prop :=
  ∀ x s, (s.getV x).toNat ≤ 0xF →
    (∃ t, exec (.skpVx x) s = .next t ∧ changesOnly [.pc] s t ∧
      t.pc = (if s.keys.getLsbD (s.getV x).toNat = true then s.pc + 2 else s.pc)) ∧
    (∃ t, exec (.sknpVx x) s = .next t ∧ changesOnly [.pc] s t ∧
      t.pc = (if s.keys.getLsbD (s.getV x).toNat = true then s.pc else s.pc + 2)) ∧
    (∀ keys rnd rest, s.pending = .cpuCycle keys rnd :: rest → s.keys = keys)

/-- Ex9E and ExA1 with Vx above 0xF fault, with the instruction's address and word and Vx in the record, and do nothing
else. 44 R160, R161, 60 R207 (the spec's own cause: D14; assumption log 12); the record: 10 R31, 60 R210 (D18), where
the address pc - 2 and the word `encode i` are the model's deduction (assumption log 10). -/
def Obligations.KeySkipsFaultOnAnIndexAboveF : Prop :=
  ∀ x s, 0xF < (s.getV x).toNat →
    (∃ t, exec (.skpVx x) s = .next t ∧ faultTaken s t .keyIndexOutOfRange (some (s.pc - 2))
      (some (encode (.skpVx x))) (some (s.getV x).toNat)) ∧
    (∃ t, exec (.sknpVx x) s = .next t ∧ faultTaken s t .keyIndexOutOfRange (some (s.pc - 2))
      (some (encode (.sknpVx x))) (some (s.getV x).toNat))

/-! ### Control flow -/

/-- RET with a return address held: sp down by one, pc the popped slot, every slot as it was. 40 R102, 10 R26 (D31;
assumption log 22). -/
def Obligations.RetPopsTheReturnAddress : Prop :=
  ∀ (s : State) (n : Fin 16), s.sp.val = n.val + 1 → ∃ t, exec .ret s = .next t ∧
    t.sp.val = n.val ∧ t.pc = s.stack.get n ∧ changesOnly [.pc, .sp] s t

/-- CALL with a free slot: the advanced pc into slot sp, sp up by one, pc = nnn. 40 R104, 10 R26. -/
def Obligations.CallPushesTheAdvancedPc : Prop :=
  ∀ (nnn : Addr) (s : State) (n : Fin 16), s.sp.val = n.val → ∃ t, exec (.callNnn nnn) s = .next t ∧
    t.stack.get n = s.pc ∧ (∀ m, m ≠ n → t.stack.get m = s.stack.get m) ∧ t.sp.val = n.val + 1 ∧
    t.pc.toNat = nnn.toNat ∧ changesOnly [.pc, .stack, .sp] s t

/-- RET after CALL, at whatever pc the subroutine has reached, comes back to the word after the CALL with the stack depth
as it was. 40 R102, R104; 95 S7. -/
def Obligations.RetUndoesCall : Prop :=
  ∀ (nnn : Addr) (s t : State) (pc : Word), s.sp.val < 16 → exec (.callNnn nnn) s = .next t →
    ∃ u, exec .ret (t.setPc pc) = .next u ∧ u.pc = s.pc ∧ u.sp = s.sp ∧ changesOnly [.stack] s u

/-- JP and JP V0: the target, unmasked; nnn + V0 never wraps. 40 R103, R109 (D24; assumption log 20). -/
def Obligations.Jumps : Prop :=
  ∀ nnn s,
    (∃ t, exec (.jpNnn nnn) s = .next t ∧ t.pc.toNat = nnn.toNat ∧ changesOnly [.pc] s t) ∧
    (∃ t, exec (.jpV0Nnn nnn) s = .next t ∧ t.pc.toNat = nnn.toNat + (s.getV 0).toNat ∧ changesOnly [.pc] s t)

/-- 3xkk and 4xkk: one more advance by 2 exactly when Vx equals, differs from, kk. 40 R105, R106, R101. -/
def Obligations.ImmediateSkips : Prop :=
  ∀ x kk s,
    (∃ t, exec (.seVxKk x kk) s = .next t ∧ changesOnly [.pc] s t ∧
      (s.getV x = kk → t.pc = s.pc + 2) ∧ (s.getV x ≠ kk → t.pc = s.pc)) ∧
    (∃ t, exec (.sneVxKk x kk) s = .next t ∧ changesOnly [.pc] s t ∧
      (s.getV x ≠ kk → t.pc = s.pc + 2) ∧ (s.getV x = kk → t.pc = s.pc))

/-- 5xy0 and 9xy0: one more advance by 2 exactly when Vx equals, differs from, Vy. 40 R107, R108, R101. -/
def Obligations.RegisterSkips : Prop :=
  ∀ x y s,
    (∃ t, exec (.seVxVy x y) s = .next t ∧ changesOnly [.pc] s t ∧
      (s.getV x = s.getV y → t.pc = s.pc + 2) ∧ (s.getV x ≠ s.getV y → t.pc = s.pc)) ∧
    (∃ t, exec (.sneVxVy x y) s = .next t ∧ changesOnly [.pc] s t ∧
      (s.getV x ≠ s.getV y → t.pc = s.pc + 2) ∧ (s.getV x = s.getV y → t.pc = s.pc))

/-! ### Load, arithmetic, logic, shifts -/

/-- 6xkk and 8xy0. 41 R120, R122. -/
def Obligations.RegisterLoads : Prop :=
  ∀ x y kk s,
    (∃ t, exec (.ldVxKk x kk) s = .next t ∧ t.getV x = kk ∧ regsOnly [x] s t ∧ changesOnly [.v] s t) ∧
    (∃ t, exec (.ldVxVy x y) s = .next t ∧ t.getV x = s.getV y ∧ regsOnly [x] s t ∧ changesOnly [.v] s t)

/-- 7xkk: modulo 256, and VF is written only as the destination. 41 R121. -/
def Obligations.AddImmediateWrapsWithoutFlag : Prop :=
  ∀ x kk s, ∃ t, exec (.addVxKk x kk) s = .next t ∧ (t.getV x).toNat = ((s.getV x).toNat + kk.toNat) % 256 ∧
    regsOnly [x] s t ∧ changesOnly [.v] s t

/-- 8xy1, 8xy2, 8xy3, bit by bit; VF is not reset. 41 R123, R124, R125. -/
def Obligations.LogicWithoutFlag : Prop :=
  ∀ x y s,
    (∃ t, exec (.orVxVy x y) s = .next t ∧ regsOnly [x] s t ∧ changesOnly [.v] s t ∧
      ∀ k, k < 8 → (t.getV x).getLsbD k = ((s.getV x).getLsbD k || (s.getV y).getLsbD k)) ∧
    (∃ t, exec (.andVxVy x y) s = .next t ∧ regsOnly [x] s t ∧ changesOnly [.v] s t ∧
      ∀ k, k < 8 → (t.getV x).getLsbD k = ((s.getV x).getLsbD k && (s.getV y).getLsbD k)) ∧
    (∃ t, exec (.xorVxVy x y) s = .next t ∧ regsOnly [x] s t ∧ changesOnly [.v] s t ∧
      ∀ k, k < 8 → (t.getV x).getLsbD k = ((s.getV x).getLsbD k != (s.getV y).getLsbD k))

/-- 8xy4: the full-width sum of the values before; VF is the carry, also when x = 0xF. 41 R126, R132 (order of the two
writes: D8; assumption log 18). -/
def Obligations.AddWithCarry : Prop :=
  ∀ x y s, ∃ t, exec (.addVxVy x y) s = .next t ∧
    (x ≠ 0xF → (t.getV x).toNat = ((s.getV x).toNat + (s.getV y).toNat) % 256) ∧
    (t.getV 0xF).toNat = (if 255 < (s.getV x).toNat + (s.getV y).toNat then 1 else 0) ∧
    regsOnly [x, 0xF] s t ∧ changesOnly [.v] s t

/-- 8xy5 and 8xy7: a - b, or a - b + 256 when a < b, of the values before; VF is NOT borrow, also when x = 0xF.
41 R127, R129, R131, R132 (D8; assumption log 18). -/
def Obligations.SubtractWithNotBorrow : Prop :=
  ∀ x y s,
    (∃ t, exec (.subVxVy x y) s = .next t ∧
      (x ≠ 0xF → ((t.getV x).toNat : Int) = if (s.getV y).toNat ≤ (s.getV x).toNat then
        ((s.getV x).toNat : Int) - (s.getV y).toNat else ((s.getV x).toNat : Int) - (s.getV y).toNat + 256) ∧
      (t.getV 0xF).toNat = (if (s.getV y).toNat ≤ (s.getV x).toNat then 1 else 0) ∧
      regsOnly [x, 0xF] s t ∧ changesOnly [.v] s t) ∧
    (∃ t, exec (.subnVxVy x y) s = .next t ∧
      (x ≠ 0xF → ((t.getV x).toNat : Int) = if (s.getV x).toNat ≤ (s.getV y).toNat then
        ((s.getV y).toNat : Int) - (s.getV x).toNat else ((s.getV y).toNat : Int) - (s.getV x).toNat + 256) ∧
      (t.getV 0xF).toNat = (if (s.getV x).toNat ≤ (s.getV y).toNat then 1 else 0) ∧
      regsOnly [x, 0xF] s t ∧ changesOnly [.v] s t)

/-- 8xy6 and 8xyE on Vx alone, whatever y: half and double; VF is the bit shifted out, 0 or 1, also when x = 0xF.
41 R128, R130, R132, 30 R81 (D7, D8; assumption log 18, 19). -/
def Obligations.ShiftsByOne : Prop :=
  ∀ x y s,
    (∃ t, exec (.shrVx x y) s = .next t ∧ (x ≠ 0xF → (t.getV x).toNat = (s.getV x).toNat / 2) ∧
      (t.getV 0xF).toNat = (s.getV x).toNat % 2 ∧ regsOnly [x, 0xF] s t ∧ changesOnly [.v] s t) ∧
    (∃ t, exec (.shlVx x y) s = .next t ∧ (x ≠ 0xF → (t.getV x).toNat = 2 * (s.getV x).toNat % 256) ∧
      (t.getV 0xF).toNat = (s.getV x).toNat / 128 ∧ regsOnly [x, 0xF] s t ∧ changesOnly [.v] s t)

/-! ### Index register, random byte -/

/-- Annn, Fx1E and Fx29: I takes nnn; I + Vx modulo 65536 with VF untouched; five times the whole byte Vx.
42 R140, R141, 45 R180 (D2, D9, D11; assumption log 6, 15, 16). -/
def Obligations.IndexRegisterWrites : Prop :=
  ∀ nnn x s,
    (∃ t, exec (.ldINnn nnn) s = .next t ∧ t.i.toNat = nnn.toNat ∧ changesOnly [.i] s t) ∧
    (∃ t, exec (.addIVx x) s = .next t ∧ t.i.toNat = (s.i.toNat + (s.getV x).toNat) % 65536 ∧
      changesOnly [.i] s t) ∧
    (∃ t, exec (.ldFVx x) s = .next t ∧ t.i.toNat = 5 * (s.getV x).toNat ∧ changesOnly [.i] s t)

/-- Cxkk: the random byte sampled by this cycle under the mask; it is the one the cycle's trigger brings, and where the
queue gives none, nothing is known of it. 42 R142, 10 R35. -/
def Obligations.RandomUnderMask : Prop :=
  ∀ x kk s,
    (∃ t, exec (.rndVxKk x kk) s = .next t ∧ regsOnly [x] s t ∧ changesOnly [.v] s t ∧
      ∀ k, k < 8 → (t.getV x).getLsbD k = (s.rnd.getLsbD k && kk.getLsbD k)) ∧
    (∀ keys rnd rest, s.pending = .cpuCycle keys rnd :: rest → s.rnd = rnd)

/-! ### Display -/

/-- CLS: every cell 0, VF and all else as it was. 43 R150. -/
def Obligations.ClearDisplay : Prop :=
  ∀ s, ∃ t, exec .cls s = .next t ∧ (∀ cx cy, pixel t.fb cx cy = false) ∧ changesOnly [.fb] s t

/-- The sprite engine, as one parallel update: a cell set by the sprite is complemented, every other cell is as it was,
and the collision result is true iff some set cell was 1 before the draw. 43 R152; the parallel form is the inference
that 43 R153 marks as derived (assumption log 17). -/
def Obligations.SpriteEngineIsAParallelXor : Prop :=
  ∀ (fb : Vector (BitVec 64) 32) (x y : Byte) (rows : List Byte), rows.length ≤ 15 →
    (∀ cx cy, spriteSets x.toNat y.toNat rows cx cy →
      pixel (drawSprite fb x y rows).fb cx cy = !pixel fb cx cy) ∧
    (∀ cx cy, ¬ spriteSets x.toNat y.toNat rows cx cy →
      pixel (drawSprite fb x y rows).fb cx cy = pixel fb cx cy) ∧
    ((drawSprite fb x y rows).hit = true ↔
      ∃ cx cy, spriteSets x.toNat y.toNat rows cx cy ∧ pixel fb cx cy = true)

/-- DRW with every address of its n bytes valid (none when n = 0): the bytes from I are drawn at (Vx, Vy), the values
before; VF is the collision flag, the last write. 43 R151, R152 (coordinates and n = 0: D12; assumption log 17). -/
def Obligations.DrawSpriteAtRegisters : Prop :=
  ∀ x y n s, (n.toNat = 0 ∨ s.i.toNat + n.toNat - 1 ≤ 0xFFF) → ∃ t, exec (.drwVxVyN x y n) s = .next t ∧
    (∀ cx cy, spriteSets (s.getV x).toNat (s.getV y).toNat (spriteRows s n) cx cy →
      pixel t.fb cx cy = !pixel s.fb cx cy) ∧
    (∀ cx cy, ¬ spriteSets (s.getV x).toNat (s.getV y).toNat (spriteRows s n) cx cy →
      pixel t.fb cx cy = pixel s.fb cx cy) ∧
    ((∃ cx cy, spriteSets (s.getV x).toNat (s.getV y).toNat (spriteRows s n) cx cy ∧ pixel s.fb cx cy = true) →
      t.getV 0xF = 1) ∧
    ((∀ cx cy, spriteSets (s.getV x).toNat (s.getV y).toNat (spriteRows s n) cx cy → pixel s.fb cx cy = false) →
      t.getV 0xF = 0) ∧
    regsOnly [0xF] s t ∧ changesOnly [.v, .fb] s t

/-- Drawing the same sprite at the same place twice restores the framebuffer; if the sprite sets a cell and the cells it
sets were clear, the second draw reports a collision. 43 R154; 95 S5. -/
def Obligations.DrawingTwiceRestoresTheFramebuffer : Prop :=
  ∀ (fb : Vector (BitVec 64) 32) (x y : Byte) (rows : List Byte), rows.length ≤ 15 →
    (drawSprite (drawSprite fb x y rows).fb x y rows).fb = fb ∧
    ((∃ cx cy, spriteSets x.toNat y.toNat rows cx cy) →
      (∀ cx cy, spriteSets x.toNat y.toNat rows cx cy → pixel fb cx cy = false) →
      (drawSprite (drawSprite fb x y rows).fb x y rows).hit = true) ∧
    ((∀ row ∈ rows, row = 0) → (drawSprite fb x y rows).hit = false)

/-- The outputs: bit 64y + x of the framebuffer output is the cell, sound is on exactly when ST > 0, the fault outputs
show the record with the code the table of 60 R201 gives its cause (1 to 6) and are idle without one, waiting is
AwaitingKey. 10 R37, 60 R201 (D17, D20, D26; assumption log 10, 22). -/
def Obligations.OutputsShowTheState : Prop :=
  ∀ s : State, (∀ (cx : Fin 64) (cy : Fin 32), s.fbOut.getLsbD (64 * cy.val + cx.val) = pixel s.fb cx cy) ∧
    (s.soundOn = true ↔ 0 < s.st.toNat) ∧ (s.waiting = true ↔ ∃ r, s.run = .awaitingKey r) ∧
    (∀ rec, s.run = .faulted rec → s.faultValid = true ∧ s.faultIaddr = rec.iaddr ∧
      s.faultOpcode = rec.opcode ∧ s.faultInfo = rec.info ∧
      (rec.cause = .romTooLarge → s.faultCause = 1) ∧ (rec.cause = .unrecognizedOpcode → s.faultCause = 2) ∧
      (rec.cause = .stackOverflow → s.faultCause = 3) ∧ (rec.cause = .stackUnderflow → s.faultCause = 4) ∧
      (rec.cause = .addressOutOfRange → s.faultCause = 5) ∧ (rec.cause = .keyIndexOutOfRange → s.faultCause = 6)) ∧
    ((∀ rec, s.run ≠ .faulted rec) → s.faultValid = false ∧ s.faultCause = 0)

/-! ### Memory through I -/

/-- Fx33 with its three addresses valid: hundreds, tens and ones at I, I + 1, I + 2; every other byte, I and the
registers as they were. 45 R181. -/
def Obligations.StoreDecimalDigits : Prop :=
  ∀ x s, s.mem.wf = true → s.i.toNat + 2 ≤ 0xFFF → ∃ t, exec (.ldBVx x) s = .next t ∧
    (t.readByte s.i.toNat).toNat = (s.getV x).toNat / 100 ∧
    (t.readByte (s.i.toNat + 1)).toNat = (s.getV x).toNat / 10 % 10 ∧
    (t.readByte (s.i.toNat + 2)).toNat = (s.getV x).toNat % 10 ∧
    bytesOnly s.i.toNat 3 s t ∧ changesOnly [.mem] s t

/-- Fx55 with its addresses valid: Vk at I + k for k = 0 to x; every other byte, I and the registers as they were.
45 R182 (I unchanged: D10; assumption log 15). -/
def Obligations.DumpRegisters : Prop :=
  ∀ (x : Reg) s, s.mem.wf = true → s.i.toNat + x.val ≤ 0xFFF → ∃ t, exec (.ldMemIVx x) s = .next t ∧
    (∀ k : Reg, k.val ≤ x.val → t.readByte (s.i.toNat + k.val) = s.getV k) ∧
    bytesOnly s.i.toNat (x.val + 1) s t ∧ changesOnly [.mem] s t

/-- Fx65 with its addresses valid: Vk is the byte at I + k for k = 0 to x, the registers above x, I and memory as they
were. 45 R183 (I unchanged: D10; assumption log 15). -/
def Obligations.LoadRegisters : Prop :=
  ∀ (x : Reg) s, s.i.toNat + x.val ≤ 0xFFF → ∃ t, exec (.ldVxMemI x) s = .next t ∧
    (∀ k : Reg, k.val ≤ x.val → t.getV k = s.readByte (s.i.toNat + k.val)) ∧
    (∀ k : Reg, x.val < k.val → t.getV k = s.getV k) ∧ changesOnly [.v] s t

/-- Dxyn, Fx33, Fx55 and Fx65 with an address above 0xFFF: AddressOutOfRange with the lowest invalid address, and not
one byte, register or pixel changed. 60 R206, R210, 20 R53, R66 (D13, D18; assumption log 10, 14; the address pc - 2 and
the word `encode i` in the record are the model's deduction, assumption log 10). -/
def Obligations.IndexAccessIsAllOrNothing : Prop :=
  ∀ (x y : Reg) (n : Nibble) s,
    (0 < n.toNat → 0xFFF < s.i.toNat + n.toNat - 1 → ∃ t, exec (.drwVxVyN x y n) s = .next t ∧
      faultTaken s t .addressOutOfRange (some (s.pc - 2)) (some (encode (.drwVxVyN x y n)))
        (some (max s.i.toNat 0x1000))) ∧
    (0xFFF < s.i.toNat + 2 → ∃ t, exec (.ldBVx x) s = .next t ∧
      faultTaken s t .addressOutOfRange (some (s.pc - 2)) (some (encode (.ldBVx x))) (some (max s.i.toNat 0x1000))) ∧
    (0xFFF < s.i.toNat + x.val →
      (∃ t, exec (.ldMemIVx x) s = .next t ∧ faultTaken s t .addressOutOfRange (some (s.pc - 2))
        (some (encode (.ldMemIVx x))) (some (max s.i.toNat 0x1000))) ∧
      (∃ t, exec (.ldVxMemI x) s = .next t ∧ faultTaken s t .addressOutOfRange (some (s.pc - 2))
        (some (encode (.ldVxMemI x))) (some (max s.i.toNat 0x1000))))

/-- A store is seen by the next fetch: after Fx33 and after Fx55, a fetch at any address where a word can stand reads,
for each of its two bytes, the stored byte where the instruction stored one and the old byte elsewhere, the first as the
high byte. 20 R55, R63 (D33; assumption log 21). -/
def Obligations.StoredBytesAreFetched : Prop :=
  ∀ (x : Reg) (s : State) (a : Word), s.mem.wf = true → a.toNat ≤ 0xFFE →
    (s.i.toNat + 2 ≤ 0xFFF → ∃ t, exec (.ldBVx x) s = .next t ∧
      (t.setPc a).fetch = some (wordOfBytes (byteAfterDigits x s a.toNat) (byteAfterDigits x s (a.toNat + 1)))) ∧
    (s.i.toNat + x.val ≤ 0xFFF → ∃ t, exec (.ldMemIVx x) s = .next t ∧
      (t.setPc a).fetch = some (wordOfBytes (byteAfterDump x s a.toNat) (byteAfterDump x s (a.toNat + 1))))

/-! ### Whole-machine statements -/

/-- Every instruction, every state: what it writes is in the "w" entries of the who-touches-what table (of the registers
the ones the entry names, of memory the bytes from I on that the instruction stores), or it took a fault and changed the
run state alone. 10 R41 (derived there), 45 R181, R182. -/
def Obligations.InstructionsWriteOnlyTheirTableEntries : Prop :=
  ∀ i s t, exec i s = .next t →
    (changesOnly (writes i) s t ∧ regsOnly (writesRegs i) s t ∧ bytesOnly s.i.toNat (writesBytes i) s t) ∨
      ((∃ rec, t.run = .faulted rec) ∧ changesOnly [.run] s t)

/-- The keys are sampled by Ex9E and ExA1 alone and the random byte by Cxkk alone: any other instruction does the same
whatever the inputs, and those do the same whenever the input they sample is the same. 10 R34, R35, 40 R100. -/
def Obligations.InputsAreSampledOnlyWhereUsed : Prop :=
  ∀ i s pending steps,
    (samplesKeys i = true → (withDriver s pending steps).keys = s.keys) →
    (samplesRnd i = true → (withDriver s pending steps).rnd = s.rnd) →
    ∃ t, exec i s = .next t ∧ exec i (withDriver s pending steps) = .next (withDriver t pending steps)

/-- A run that has ended normally stays where it is: a further cycle changes nothing of the machine, and the run has
still ended. 70 R235 (the convention: D25). -/
def Obligations.EndedRunStays : Prop :=
  ∀ s e, s.endedNormally e = true → isCycle s → ∃ t, step s = .next t ∧ changesOnly [.driver] s t ∧
    t.endedNormally e = true

/-- The invariant holds at reset (the reset values: 10 R39; assumption log 5, 7, 8). -/
def Obligations.InvariantHoldsAtReset : Prop := State.reset.Inv

/-- Every step keeps the invariant: canonical memory (the model's form); pc at most 0x10FE and every live stack slot at
most 0x1000 (10 R25, derived there; R26); a fault record of the form its cause gives it (10 R31, 60 R201; D16 to D18;
assumption log 10). -/
def Obligations.InvariantIsKeptByEveryStep : Prop :=
  ∀ s t : State, s.Inv → step s = .next t → t.Inv
end

