-- ==== Sys2Proof/Laws/Assembler.lean ====
section
/-! SUPPORT. The parts of the notation: a digit, an operand and a line, printed and read again. -/

namespace Sys2Proof.Asm

/-- A printed digit reads as its value. -/
@[simp] theorem digitValue_digitChar (d : Nibble) : digitValue 16 (digitChar d) = some d.toNat := by
  revert d; decide

/-- A printed digit is no separator. -/
@[simp] theorem isBlank_digitChar (d : Nibble) : isBlank (digitChar d) = false := by
  revert d; decide

/-- A printed digit ends no line. -/
theorem digitChar_ne_newline (d : Nibble) : (digitChar d == '\n') = false := by
  revert d; decide

/-- A printed register reads as itself. -/
theorem registerOf_registerText (x : Reg) : registerOf (registerText x) = some x := by
  revert x; decide

/-- Two printed digits read as a byte. -/
theorem numberOf_byteText (b : Byte) : numberOf (byteText b) = some b.toNat := by
  simp only [byteText, numberOf, digitsValue, digitValue_digitChar, BitVec.extractLsb'_toNat]
  have := b.isLt
  congr 1
  omega

/-- Three printed digits read as an address. -/
theorem numberOf_addrText (a : Addr) : numberOf (addrText a) = some a.toNat := by
  simp only [addrText, numberOf, digitsValue, digitValue_digitChar, BitVec.extractLsb'_toNat]
  have := a.isLt
  congr 1
  omega

/-- One printed digit reads as a nibble. -/
theorem numberOf_nibbleText (n : Nibble) : numberOf (nibbleText n) = some n.toNat := by
  simp only [nibbleText, numberOf, digitsValue, digitValue_digitChar]
  congr 1
  omega

/-- A register operand. -/
theorem operandOf_registerText (symbols : Symbols) (x : Reg) :
    operandOf symbols (registerText x) = some (.reg x) := by
  have h : keywords.lookup (registerText x) = none := by revert x; decide
  rw [operandOf, h, registerOf_registerText]

/-- A number operand, whatever its digits. -/
theorem operandOf_number (symbols : Symbols) {cs : Text} {n : Nat} (h : numberOf ('0' :: 'x' :: cs) = some n) :
    operandOf symbols ('0' :: 'x' :: cs) = some (.num n) := by
  have hk : keywords.lookup ('0' :: 'x' :: cs) = none := by
    have key : ∀ (c : Char) (t : Text), c ≠ '0' → (('0' :: 'x' :: cs : Text) == c :: t) = false := by
      intro c t hc
      simp [hc.symm]
    simp only [keywords, List.lookup]
    rw [show "I".toList = ['I'] from by decide, show "DT".toList = ['D', 'T'] from by decide,
      show "ST".toList = ['S', 'T'] from by decide, show "K".toList = ['K'] from by decide,
      show "F".toList = ['F'] from by decide, show "B".toList = ['B'] from by decide,
      show "[I]".toList = ['[', 'I', ']'] from by decide]
    simp only [key _ _ (by decide : 'I' ≠ '0'), key _ _ (by decide : 'D' ≠ '0'), key _ _ (by decide : 'S' ≠ '0'),
      key _ _ (by decide : 'K' ≠ '0'), key _ _ (by decide : 'F' ≠ '0'), key _ _ (by decide : 'B' ≠ '0'),
      key _ _ (by decide : '[' ≠ '0')]
  have hr : registerOf ('0' :: 'x' :: cs) = none := by simp [registerOf]
  rw [operandOf, hk, hr, h]

/-- A value fits its own field. -/
@[simp] theorem fieldValue_toNat (w : Nat) (v : BitVec w) : fieldValue w v.toNat = some v := by
  rw [fieldValue, if_pos v.isLt, BitVec.ofNat_toNat, BitVec.setWidth_eq]

/-- A piece goes on to the next separator. -/
theorem pieces_append (sep : Char → Bool) (t rest word : Text) (h : ∀ c ∈ t, sep c = false) :
    pieces sep word (t ++ rest) = pieces sep (word ++ t) rest := by
  induction t generalizing word with
  | nil => simp
  | cons c cs ih =>
    rw [List.cons_append, pieces, if_neg (by simp [h c (List.mem_cons_self ..)]),
      ih _ (fun d hd => h d (List.mem_cons_of_mem c hd))]
    simp

/-! ### A line of words, split again -/

/-- A character that separates neither words nor lines. -/
def inWord (c : Char) : Bool := !isBlank c && !(c == '\n')

/-- A word that neither a blank nor a line end cuts. -/
def whole (t : Text) : Bool := !t.isEmpty && t.all inWord

/-- A printed digit stands inside a word. -/
@[simp] theorem inWord_digitChar (d : Nibble) : inWord (digitChar d) = true := by
  simp [inWord, digitChar_ne_newline]

/-- Inside a word there is no blank. -/
theorem whole_blank {t : Text} (h : whole t = true) : ∀ c ∈ t, isBlank c = false := by
  intro c hc
  have := List.all_eq_true.1 (Bool.and_eq_true_iff.1 h).2 c hc
  simpa using (Bool.and_eq_true_iff.1 this).1

/-- Inside a word there is no line end. -/
theorem whole_newline {t : Text} (h : whole t = true) : ∀ c ∈ t, (c == '\n') = false := by
  intro c hc
  have := List.all_eq_true.1 (Bool.and_eq_true_iff.1 h).2 c hc
  simpa using (Bool.and_eq_true_iff.1 this).2

/-- A word is not empty. -/
theorem whole_isEmpty {t : Text} (h : whole t = true) : t.isEmpty = false := by
  simpa using (Bool.and_eq_true_iff.1 h).1

/-- One more word in front of a line. -/
theorem intercalate_cons (t u : Text) (us : List Text) :
    [' '].intercalate (t :: u :: us) = t ++ ' ' :: [' '].intercalate (u :: us) := by
  simp [List.intercalate]

/-- Words joined by blanks split into the same words. -/
theorem wordsOf_intercalate : ∀ ws : List Text, (∀ t ∈ ws, whole t = true) → wordsOf ([' '].intercalate ws) = ws
  | [], _ => rfl
  | [t], h => by
    have ht := h t (List.mem_singleton.2 rfl)
    have := pieces_append isBlank t [] [] (whole_blank ht)
    simp only [List.append_nil, List.nil_append] at this
    simp [wordsOf, List.intercalate, this, pieces, whole_isEmpty ht]
  | t :: u :: us, h => by
    have ht := h t (List.mem_cons_self ..)
    have hu := wordsOf_intercalate (u :: us) fun v hv => h v (List.mem_cons_of_mem t hv)
    rw [intercalate_cons, wordsOf, pieces_append _ _ _ _ (whole_blank ht), pieces, if_pos (by decide),
      if_neg (by simp [whole_isEmpty ht])]
    exact congrArg (t :: ·) hu

/-- Words joined by blanks hold no line end. -/
theorem intercalate_newline : ∀ ws : List Text, (∀ t ∈ ws, whole t = true) →
    ∀ c ∈ [' '].intercalate ws, (c == '\n') = false
  | [], _, c, hc => by simp [List.intercalate] at hc
  | [t], h, c, hc => whole_newline (h t (List.mem_singleton.2 rfl)) c (by simpa [List.intercalate] using hc)
  | t :: u :: us, h, c, hc => by
    rw [intercalate_cons] at hc
    rcases List.mem_append.1 hc with hc | hc
    · exact whole_newline (h t (List.mem_cons_self ..)) c hc
    · rcases List.mem_cons.1 hc with rfl | hc
      · decide
      · exact intercalate_newline (u :: us) (fun v hv => h v (List.mem_cons_of_mem t hv)) c hc

/-- A text without a line end is one line. -/
theorem one_line {t : Text} (h : ∀ c ∈ t, (c == '\n') = false) (hne : t.isEmpty = false) :
    pieces (· == '\n') [] t = [t] := by
  have := pieces_append (· == '\n') t [] [] h
  simp only [List.append_nil, List.nil_append] at this
  rw [this, pieces, if_neg (by simp [hne])]

/-- A printed register is a word. -/
theorem whole_registerText (x : Reg) : whole (registerText x) = true := by
  simp only [registerText, whole, List.isEmpty_cons, List.all_cons, inWord_digitChar]; decide

/-- A printed byte is a word. -/
theorem whole_byteText (b : Byte) : whole (byteText b) = true := by
  simp only [byteText, whole, List.isEmpty_cons, List.all_cons, inWord_digitChar]; decide

/-- A printed address is a word. -/
theorem whole_addrText (a : Addr) : whole (addrText a) = true := by
  simp only [addrText, whole, List.isEmpty_cons, List.all_cons, inWord_digitChar]; decide

/-- A printed nibble is a word. -/
theorem whole_nibbleText (n : Nibble) : whole (nibbleText n) = true := by
  simp only [nibbleText, whole, List.isEmpty_cons, List.all_cons, inWord_digitChar]; decide

/-- The words of an instruction are words. -/
theorem whole_instrWords (i : Instr) : ∀ t ∈ instrWords i, whole t = true := by
  cases i <;>
    simp only [instrWords, List.forall_mem_cons, List.not_mem_nil, false_implies, implies_true, and_true,
      whole_registerText, whole_byteText, whole_addrText, whole_nibbleText] <;> decide

end Sys2Proof.Asm
end

