-- ==== Sys2Proof/Laws/Decode.lean ====
section
/-! SUPPORT. The fields of a word built by a format, and a word as its fields. -/

namespace Sys2Proof

@[simp] theorem regOf_fieldOf (x : Reg) : regOf (fieldOf x) = x := by
  apply Fin.ext
  simp [regOf, fieldOf]

@[simp] theorem fieldOf_regOf (f : Nibble) : fieldOf (regOf f) = f := by
  simp [regOf, fieldOf]

/-! ### The bits of each format -/

theorem getLsbD_formatNnn (g : Nibble) (nnn : Addr) (k : Nat) :
    (formatNnn g nnn).getLsbD k = if k < 12 then nnn.getLsbD k else g.getLsbD (k - 12) :=
  BitVec.getLsbD_append

theorem getLsbD_formatXkk (g : Nibble) (x : Reg) (kk : Byte) (k : Nat) :
    (formatXkk g x kk).getLsbD k =
      if k < 8 then kk.getLsbD k
      else if k - 8 < 4 then (fieldOf x).getLsbD (k - 8) else g.getLsbD (k - 8 - 4) :=
  BitVec.getLsbD_append.trans (by rw [BitVec.getLsbD_append])

theorem getLsbD_formatXyn (g : Nibble) (x y : Reg) (n : Nibble) (k : Nat) :
    (formatXyn g x y n).getLsbD k =
      if k < 4 then n.getLsbD k
      else if k - 4 < 4 then (fieldOf y).getLsbD (k - 4)
      else if k - 4 - 4 < 4 then (fieldOf x).getLsbD (k - 4 - 4) else g.getLsbD (k - 4 - 4 - 4) :=
  BitVec.getLsbD_append.trans (by rw [BitVec.getLsbD_append, BitVec.getLsbD_append])

/-! ### The fields of each format -/

@[simp] theorem opGroup_formatNnn (g : Nibble) (nnn : Addr) : opGroup (formatNnn g nnn) = g := by
  refine BitVec.eq_of_getLsbD_eq fun k hk => ?_
  simp only [opGroup, BitVec.getLsbD_extractLsb', getLsbD_formatNnn]
  interval_cases k <;> simp

@[simp] theorem opNnn_formatNnn (g : Nibble) (nnn : Addr) : opNnn (formatNnn g nnn) = nnn := by
  refine BitVec.eq_of_getLsbD_eq fun k hk => ?_
  simp only [opNnn, BitVec.getLsbD_extractLsb', getLsbD_formatNnn]
  interval_cases k <;> simp

@[simp] theorem opGroup_formatXkk (g : Nibble) (x : Reg) (kk : Byte) : opGroup (formatXkk g x kk) = g := by
  refine BitVec.eq_of_getLsbD_eq fun k hk => ?_
  simp only [opGroup, BitVec.getLsbD_extractLsb', getLsbD_formatXkk]
  interval_cases k <;> simp

@[simp] theorem opX_formatXkk (g : Nibble) (x : Reg) (kk : Byte) : opX (formatXkk g x kk) = fieldOf x := by
  refine BitVec.eq_of_getLsbD_eq fun k hk => ?_
  simp only [opX, BitVec.getLsbD_extractLsb', getLsbD_formatXkk]
  interval_cases k <;> simp

@[simp] theorem opKk_formatXkk (g : Nibble) (x : Reg) (kk : Byte) : opKk (formatXkk g x kk) = kk := by
  refine BitVec.eq_of_getLsbD_eq fun k hk => ?_
  simp only [opKk, BitVec.getLsbD_extractLsb', getLsbD_formatXkk]
  interval_cases k <;> simp

@[simp] theorem opGroup_formatXyn (g : Nibble) (x y : Reg) (n : Nibble) : opGroup (formatXyn g x y n) = g := by
  refine BitVec.eq_of_getLsbD_eq fun k hk => ?_
  simp only [opGroup, BitVec.getLsbD_extractLsb', getLsbD_formatXyn]
  interval_cases k <;> simp

@[simp] theorem opX_formatXyn (g : Nibble) (x y : Reg) (n : Nibble) : opX (formatXyn g x y n) = fieldOf x := by
  refine BitVec.eq_of_getLsbD_eq fun k hk => ?_
  simp only [opX, BitVec.getLsbD_extractLsb', getLsbD_formatXyn]
  interval_cases k <;> simp

@[simp] theorem opY_formatXyn (g : Nibble) (x y : Reg) (n : Nibble) : opY (formatXyn g x y n) = fieldOf y := by
  refine BitVec.eq_of_getLsbD_eq fun k hk => ?_
  simp only [opY, BitVec.getLsbD_extractLsb', getLsbD_formatXyn]
  interval_cases k <;> simp

@[simp] theorem opN_formatXyn (g : Nibble) (x y : Reg) (n : Nibble) : opN (formatXyn g x y n) = n := by
  refine BitVec.eq_of_getLsbD_eq fun k hk => ?_
  simp only [opN, BitVec.getLsbD_extractLsb', getLsbD_formatXyn]
  interval_cases k <;> simp

/-! ### A word is its fields -/

theorem formatNnn_fields (op : Word) : formatNnn (opGroup op) (opNnn op) = op := by
  refine BitVec.eq_of_getLsbD_eq fun k hk => ?_
  simp only [getLsbD_formatNnn, opGroup, opNnn, BitVec.getLsbD_extractLsb']
  interval_cases k <;> simp

theorem formatXkk_fields (op : Word) : formatXkk (opGroup op) (regOf (opX op)) (opKk op) = op := by
  refine BitVec.eq_of_getLsbD_eq fun k hk => ?_
  simp only [getLsbD_formatXkk, fieldOf_regOf, opGroup, opX, opKk, BitVec.getLsbD_extractLsb']
  interval_cases k <;> simp

theorem formatXyn_fields (op : Word) : formatXyn (opGroup op) (regOf (opX op)) (regOf (opY op)) (opN op) = op := by
  refine BitVec.eq_of_getLsbD_eq fun k hk => ?_
  simp only [getLsbD_formatXyn, fieldOf_regOf, opGroup, opX, opY, opN, BitVec.getLsbD_extractLsb']
  interval_cases k <;> simp

/-- The two bytes of a word give the word back (20 R55). -/
@[simp] theorem wordOfBytes_bytes (op : Word) : wordOfBytes (highByte op) (lowByte op) = op := by
  refine BitVec.eq_of_getLsbD_eq fun k hk => ?_
  refine (BitVec.getLsbD_append (x := highByte op) (y := lowByte op)).trans ?_
  simp only [highByte, lowByte, BitVec.getLsbD_extractLsb']
  interval_cases k <;> simp

@[simp] theorem highByte_wordOfBytes (hi lo : Byte) : highByte (wordOfBytes hi lo) = hi := by
  refine BitVec.eq_of_getLsbD_eq fun k hk => ?_
  have h := BitVec.getLsbD_append (x := hi) (y := lo) (i := 8 + k)
  simp only [highByte, wordOfBytes, BitVec.getLsbD_extractLsb']
  refine (congrArg _ h).trans ?_
  simp [hk]

@[simp] theorem lowByte_wordOfBytes (hi lo : Byte) : lowByte (wordOfBytes hi lo) = lo := by
  refine BitVec.eq_of_getLsbD_eq fun k hk => ?_
  have h := BitVec.getLsbD_append (x := hi) (y := lo) (i := 0 + k)
  simp only [lowByte, wordOfBytes, BitVec.getLsbD_extractLsb']
  refine (congrArg _ h).trans ?_
  simp [hk]

end Sys2Proof
end

