-- ==== Sys2Proof/Laws/Memory.lean ====
section
/-! SUPPORT. The laws of memory: read after write, writes elsewhere, the canonical form, and that canonical memories
that read alike are equal. -/

namespace Sys2Proof.Machine

theorem Memory.wfFrom_cons (lo a : Nat) (v : Byte) (m : Memory) :
    Memory.wfFrom lo ((a, v) :: m) = true ↔
      lo ≤ a ∧ a < Config.memSize ∧ v ≠ Memory.default a ∧ Memory.wfFrom (a + 1) m = true := by
  simp [Memory.wfFrom, and_assoc]

theorem Memory.wfFrom_mono {lo lo' : Nat} (h : lo' ≤ lo) {m : Memory} (hm : Memory.wfFrom lo m = true) :
    Memory.wfFrom lo' m = true := by
  cases m with
  | nil => rfl
  | cons c m =>
    obtain ⟨a, v⟩ := c
    rw [Memory.wfFrom_cons] at hm ⊢
    exact ⟨h.trans hm.1, hm.2⟩

/-- Below its first listed address a canonical memory reads as the reset contents. -/
theorem Memory.read_below {lo a : Nat} (h : a < lo) {m : Memory} (hm : Memory.wfFrom lo m = true) :
    Memory.read m a = Memory.default a := by
  induction m generalizing lo with
  | nil => rfl
  | cons c m ih =>
    obtain ⟨b, v⟩ := c
    rw [Memory.wfFrom_cons] at hm
    have hab : a ≠ b := by omega
    simp only [Memory.read, hab, if_false]
    exact ih (lo := b + 1) (by omega) hm.2.2.2

theorem Memory.read_cons_same (a : Nat) (v : Byte) {lo : Nat} (h : a < lo) {m : Memory}
    (hm : Memory.wfFrom lo m = true) : Memory.read (Memory.cons a v m) a = v := by
  unfold Memory.cons
  split
  · rename_i hv
    rw [Memory.read_below h hm, hv]
  · simp [Memory.read]

theorem Memory.read_cons_other {a b : Nat} (h : b ≠ a) (v : Byte) (m : Memory) :
    Memory.read (Memory.cons a v m) b = Memory.read m b := by
  unfold Memory.cons
  split
  · rfl
  · simp [Memory.read, h]

theorem Memory.cons_wfFrom {lo a : Nat} (h : lo ≤ a) (ha : a < Config.memSize) (v : Byte) {m : Memory}
    (hm : Memory.wfFrom (a + 1) m = true) : Memory.wfFrom lo (Memory.cons a v m) = true := by
  unfold Memory.cons
  split
  · exact Memory.wfFrom_mono (by omega) hm
  · rename_i hv
    rw [Memory.wfFrom_cons]
    exact ⟨h, ha, hv, hm⟩

/-- Read after write at the same address. -/
theorem Memory.read_write_same {lo : Nat} {m : Memory} (hm : Memory.wfFrom lo m = true) (a : Nat) (v : Byte) :
    Memory.read (Memory.write m a v) a = v := by
  induction m generalizing lo with
  | nil => exact Memory.read_cons_same a v (lo := a + 1) (by omega) rfl
  | cons c m ih =>
    obtain ⟨b, w⟩ := c
    have hc := hm
    rw [Memory.wfFrom_cons] at hm
    unfold Memory.write
    split
    · rename_i hab
      exact Memory.read_cons_same a v (lo := b) hab ((Memory.wfFrom_cons _ _ _ _).2 ⟨le_refl b, hm.2⟩)
    · split
      · rename_i hab
        exact Memory.read_cons_same a v (lo := b + 1) (by omega) hm.2.2.2
      · rename_i hab
        simp only [Memory.read, hab, if_false]
        exact ih hm.2.2.2

/-- A write leaves every other address alone, in any memory. -/
theorem Memory.read_write_other {a b : Nat} (h : b ≠ a) (m : Memory) (v : Byte) :
    Memory.read (Memory.write m a v) b = Memory.read m b := by
  induction m with
  | nil => exact Memory.read_cons_other h v []
  | cons c m ih =>
    obtain ⟨k, w⟩ := c
    unfold Memory.write
    split
    · exact Memory.read_cons_other h v _
    · split
      · rename_i hak
        rw [Memory.read_cons_other h v m]
        have : b ≠ k := by omega
        simp [Memory.read, this]
      · simp only [Memory.read]
        split
        · rfl
        · exact ih

/-- A write inside the address space keeps the canonical form. -/
theorem Memory.write_wfFrom {lo a : Nat} (h : lo ≤ a) (ha : a < Config.memSize) (v : Byte) {m : Memory}
    (hm : Memory.wfFrom lo m = true) : Memory.wfFrom lo (Memory.write m a v) = true := by
  induction m generalizing lo with
  | nil => exact Memory.cons_wfFrom h ha v rfl
  | cons c m ih =>
    obtain ⟨b, w⟩ := c
    rw [Memory.wfFrom_cons] at hm
    unfold Memory.write
    split
    · rename_i hab
      exact Memory.cons_wfFrom h ha v ((Memory.wfFrom_cons _ _ _ _).2 ⟨hab, hm.2⟩)
    · split
      · rename_i hab
        subst hab
        exact Memory.cons_wfFrom h ha v hm.2.2.2
      · rw [Memory.wfFrom_cons]
        exact ⟨hm.1, hm.2.1, hm.2.2.1, ih (by omega) hm.2.2.2⟩

theorem Memory.write_wf {a : Nat} (ha : a < Config.memSize) (v : Byte) {m : Memory} (hm : m.wf = true) :
    (m.write a v).wf = true := Memory.write_wfFrom (Nat.zero_le a) ha v hm

/-- Bytes stored inside the address space keep the canonical form. -/
theorem Memory.writeList_wf {base : Nat} {bytes : List Byte} {m : Memory} (hm : m.wf = true)
    (h : base + bytes.length ≤ Config.memSize) : (m.writeList base bytes).wf = true := by
  induction bytes generalizing m base with
  | nil => exact hm
  | cons b bs ih =>
    simp only [List.length_cons] at h
    exact ih (Memory.write_wf (by omega) b hm) (by omega)

/-- Bytes stored leave every address outside them alone, in any memory. -/
theorem Memory.read_writeList_outside {base a : Nat} {bytes : List Byte} (m : Memory)
    (h : a < base ∨ base + bytes.length ≤ a) : (m.writeList base bytes).read a = m.read a := by
  induction bytes generalizing m base with
  | nil => rfl
  | cons b bs ih =>
    simp only [List.length_cons] at h
    exact (ih (m.write base b) (by omega)).trans (Memory.read_write_other (by omega) m b)

/-- A stored byte reads back. -/
theorem Memory.read_writeList_inside {base : Nat} {bytes : List Byte} {m : Memory} (hm : m.wf = true)
    (h : base + bytes.length ≤ Config.memSize) {k : Nat} (hk : k < bytes.length) :
    (m.writeList base bytes).read (base + k) = bytes[k] := by
  induction bytes generalizing m base k with
  | nil => simp at hk
  | cons b bs ih =>
    simp only [List.length_cons] at h hk
    have hw : (m.write base b).wf = true := Memory.write_wf (by omega) b hm
    cases k with
    | zero =>
      exact (Memory.read_writeList_outside (m.write base b) (by omega)).trans (Memory.read_write_same hm base b)
    | succ k =>
      have := ih (base := base + 1) (k := k) hw (by omega) (by omega)
      simpa [Memory.writeList, Nat.add_assoc, Nat.add_comm 1 k] using this

theorem Memory.eq_of_read_from {lo : Nat} {m n : Memory} (hm : Memory.wfFrom lo m = true)
    (hn : Memory.wfFrom lo n = true) (h : ∀ a, lo ≤ a → Memory.read m a = Memory.read n a) : m = n := by
  induction m generalizing lo n with
  | nil =>
    cases n with
    | nil => rfl
    | cons c n =>
      obtain ⟨a, v⟩ := c
      rw [Memory.wfFrom_cons] at hn
      have := h a hn.1
      simp only [Memory.read, if_true] at this
      exact absurd this.symm hn.2.2.1
  | cons c m ih =>
    obtain ⟨a, v⟩ := c
    have hm' := (Memory.wfFrom_cons _ _ _ _).1 hm
    cases n with
    | nil =>
      have := h a hm'.1
      simp only [Memory.read, if_true] at this
      exact absurd this hm'.2.2.1
    | cons d n =>
      obtain ⟨b, w⟩ := d
      have hn' := (Memory.wfFrom_cons _ _ _ _).1 hn
      rcases Nat.lt_trichotomy a b with hab | hab | hab
      · have := h a hm'.1
        rw [Memory.read_below hab ((Memory.wfFrom_cons _ _ _ _).2 ⟨le_refl b, hn'.2⟩)] at this
        simp only [Memory.read, if_true] at this
        exact absurd this hm'.2.2.1
      · subst hab
        have hv : v = w := by simpa [Memory.read] using h a hm'.1
        subst hv
        have : m = n := by
          refine ih hm'.2.2.2 hn'.2.2.2 fun k hk => ?_
          have hka : k ≠ a := by omega
          simpa [Memory.read, hka] using h k (by omega)
        rw [this]
      · have := h b hn'.1
        rw [Memory.read_below hab ((Memory.wfFrom_cons _ _ _ _).2 ⟨le_refl a, hm'.2⟩)] at this
        simp only [Memory.read, if_true] at this
        exact absurd this.symm hn'.2.2.1

/-- Canonical memories that read alike at every address are equal data. -/
theorem Memory.eq_of_read {m n : Memory} (hm : m.wf = true) (hn : n.wf = true)
    (h : ∀ a, m.read a = n.read a) : m = n := Memory.eq_of_read_from hm hn fun a _ => h a

/-- The reset memory, which lists nothing, is canonical. -/
theorem Memory.reset_wf : State.reset.mem.wf = true := rfl

end Sys2Proof.Machine
end

