-- ==== Sys2Proof/Laws/Ops.lean ====
section
/-! SUPPORT. One lemma a shared operation: everything it can do. -/

namespace Sys2Proof.Machine

/-! ### Registers and the flag -/

/-- Reading a register after writing one. -/
theorem State.getV_setV (s : State) (x z : Reg) (b : Byte) :
    (s.setV x b).getV z = if z = x then b else s.getV z := by
  unfold State.getV State.setV
  by_cases h : z = x
  · subst h
    simp [Vector.get_eq_getElem]
  · have h' : x.val ≠ z.val := fun e => h (Fin.ext e.symm)
    simp [Vector.get_eq_getElem, h, h', Vector.getElem_set_ne]

@[simp] theorem State.getV_setV_same (s : State) (x : Reg) (b : Byte) : (s.setV x b).getV x = b := by
  simp [State.getV_setV]

theorem State.getV_setV_other (s : State) {x z : Reg} (h : z ≠ x) (b : Byte) : (s.setV x b).getV z = s.getV z := by
  simp [State.getV_setV, h]

/-- Reading a register after a result and a flag were written: the flag is the last write. -/
theorem State.getV_setResultFlag (s : State) (x z : Reg) (b : Byte) (c : Bool) :
    (s.setResultFlag x b c).getV z = if z = vf then flagByte c else if z = x then b else s.getV z := by
  simp [State.setResultFlag, State.getV_setV]

theorem flagByte_toNat (c : Bool) : (flagByte c).toNat = if c then 1 else 0 := by
  cases c <;> rfl

/-! ### The stack -/

theorem State.push_none_iff (s : State) (v : Word) : s.push v = none ↔ s.sp.val = 16 := by
  unfold State.push
  split <;> simp <;> omega

/-- What a push that succeeds does: the slot at the old depth, the depth, nothing else. -/
theorem State.push_some {s t : State} {v : Word} (h : s.push v = some t) :
    ∃ hs : s.sp.val < 16, t = { s with stack := s.stack.set s.sp.val v hs, sp := ⟨s.sp.val + 1, by omega⟩ } := by
  unfold State.push at h
  split at h
  · rename_i hs
    exact ⟨hs, (Option.some.inj h).symm⟩
  · exact absurd h (by simp)

theorem State.pop_none_iff (s : State) : s.pop = none ↔ s.sp.val = 0 := by
  unfold State.pop
  split <;> simp <;> omega

/-- What a pop that succeeds does: it answers the top live slot and lowers the depth. -/
theorem State.pop_some {s t : State} {v : Word} (h : s.pop = some (v, t)) :
    ∃ hs : 0 < s.sp.val, v = s.stack[s.sp.val - 1]'(by omega) ∧ t = { s with sp := ⟨s.sp.val - 1, by omega⟩ } := by
  unfold State.pop at h
  split at h
  · rename_i hs
    have h' := Option.some.inj h
    exact ⟨hs, (congrArg Prod.fst h').symm, (congrArg Prod.snd h').symm⟩
  · exact absurd h (by simp)

/-! ### Blocks of memory -/

theorem validRange_iff (base n : Nat) : validRange base n = true ↔ n = 0 ∨ base + n ≤ 0x1000 := by
  unfold validRange Config.memSize
  rw [Bool.or_eq_true, decide_eq_true_eq, beq_iff_eq]

/-- The bytes a block read answers. -/
theorem State.readBlock_some {s : State} {base n : Nat} {bytes : List Byte} (h : s.readBlock base n = some bytes) :
    validRange base n = true ∧ bytes = (List.range n).map fun k => s.readByte (base + k) := by
  unfold State.readBlock at h
  split at h
  · rename_i hv
    exact ⟨hv, (Option.some.inj h).symm⟩
  · exact absurd h (by simp)

theorem State.readBlock_none_iff (s : State) (base n : Nat) :
    s.readBlock base n = none ↔ n ≠ 0 ∧ 0x1000 < base + n := by
  have := validRange_iff base n
  unfold State.readBlock
  split
  · have := this.1 ‹_›
    simp only [reduceCtorEq, false_iff]
    omega
  · simp only [true_iff]
    by_contra hc
    exact ‹¬ validRange base n = true› (this.2 (by omega))

/-- What a block write that succeeds does. -/
theorem State.writeBlock_some {s t : State} {base : Nat} {bytes : List Byte} (h : s.writeBlock base bytes = some t) :
    validRange base bytes.length = true ∧ t = s.setMem (s.mem.writeList base bytes) := by
  unfold State.writeBlock at h
  split at h
  · rename_i hv
    exact ⟨hv, (Option.some.inj h).symm⟩
  · exact absurd h (by simp)

theorem State.writeBlock_none_iff (s : State) (base : Nat) (bytes : List Byte) :
    s.writeBlock base bytes = none ↔ bytes.length ≠ 0 ∧ 0x1000 < base + bytes.length := by
  have := validRange_iff base bytes.length
  unfold State.writeBlock
  split
  · have := this.1 ‹_›
    simp only [reduceCtorEq, false_iff]
    omega
  · simp only [true_iff]
    by_contra hc
    exact ‹¬ validRange base bytes.length = true› (this.2 (by omega))

/-- A block write keeps the canonical form of memory. -/
theorem State.writeBlock_wf {s t : State} {base : Nat} {bytes : List Byte} (h : s.writeBlock base bytes = some t)
    (hm : s.mem.wf = true) : t.mem.wf = true := by
  obtain ⟨hv, rfl⟩ := State.writeBlock_some h
  rcases (validRange_iff _ _).1 hv with h0 | h0
  · rw [List.length_eq_zero_iff] at h0
    subst h0
    exact hm
  · exact Memory.writeList_wf hm h0

/-- A block write whose addresses are valid succeeds. -/
theorem State.writeBlock_ok (s : State) {base : Nat} {bytes : List Byte} (h : base + bytes.length ≤ 0x1000) :
    ∃ t, s.writeBlock base bytes = some t := by
  cases ht : s.writeBlock base bytes with
  | none => have := (State.writeBlock_none_iff s base bytes).1 ht; omega
  | some t => exact ⟨t, rfl⟩

/-- Every byte of memory after a block write: the stored one where one was stored, the old one elsewhere. -/
theorem State.readByte_writeBlock {s t : State} {base : Nat} {bytes : List Byte} (h : s.writeBlock base bytes = some t)
    (hm : s.mem.wf = true) (a : Nat) :
    t.readByte a = if base ≤ a ∧ a < base + bytes.length then bytes.getD (a - base) 0 else s.readByte a := by
  obtain ⟨hv, rfl⟩ := State.writeBlock_some h
  split
  · rename_i hin
    have hl : base + bytes.length ≤ Config.memSize := by
      rcases (validRange_iff _ _).1 hv with h0 | h0
      · omega
      · exact h0
    have hk : a - base < bytes.length := by omega
    have := Memory.read_writeList_inside hm hl hk
    rw [show base + (a - base) = a by omega] at this
    rw [List.getD_eq_getElem _ _ hk]
    exact this
  · exact Memory.read_writeList_outside s.mem (by omega)

/-- A block write leaves the bytes outside the block, whatever the memory. -/
theorem State.readByte_writeBlock_outside {s t : State} {base : Nat} {bytes : List Byte}
    (h : s.writeBlock base bytes = some t) {a : Nat} (ha : a < base ∨ base + bytes.length ≤ a) :
    t.readByte a = s.readByte a := by
  obtain ⟨_, rfl⟩ := State.writeBlock_some h
  exact Memory.read_writeList_outside s.mem ha

/-! ### Fetching -/

/-- The word fetched: the two bytes at pc, the high byte first, when both exist (40 R100). -/
theorem State.fetch_eq (s : State) :
    s.fetch = if s.pc.toNat ≤ 0xFFE then
      some (wordOfBytes (s.readByte s.pc.toNat) (s.readByte (s.pc.toNat + 1))) else none := by
  unfold State.fetch
  by_cases h : s.pc.toNat ≤ 0xFFE
  · have hv : validRange s.pc.toNat 2 = true := (validRange_iff _ _).2 (Or.inr (by omega))
    simp [State.readBlock, hv, h, List.range_succ]
  · have hv : s.readBlock s.pc.toNat 2 = none := (State.readBlock_none_iff _ _ _).2 ⟨by simp, by omega⟩
    simp [hv, h]

/-! ### Timers, keys, the poll -/

theorem tickDown_toNat (t : Byte) : (tickDown t).toNat = t.toNat - 1 := by
  unfold tickDown
  split
  · rename_i h
    simp [h]
  · rename_i h
    have : t.toNat ≠ 0 := fun e => h (BitVec.eq_of_toNat_eq (by simpa using e))
    rw [BitVec.toNat_sub]
    have := t.isLt
    simp
    omega

/-- The lowest pressed key: it is pressed and no lower one is. -/
theorem lowestKey_some {keys : BitVec 16} {k : Nat} (h : lowestKey keys = some k) :
    k < 16 ∧ keys.getLsbD k = true ∧ ∀ j < k, keys.getLsbD j = false := by
  unfold lowestKey at h
  obtain ⟨hp, hk, hlow⟩ := List.find?_range_eq_some.1 h
  exact ⟨List.mem_range.1 hk, hp, fun j hj => by simpa using hlow j hj⟩

theorem lowestKey_none_iff (keys : BitVec 16) : lowestKey keys = none ↔ ∀ k < 16, keys.getLsbD k = false := by
  simp [lowestKey, List.find?_eq_none]

/-- The poll: the lowest pressed key to the register and Running, or nothing at all. -/
theorem State.poll_cases (s : State) (r : Reg) :
    (∃ k, lowestKey s.keys = some k ∧ s.poll r = (s.setV r (BitVec.ofNat 8 k)).setRun .running) ∨
      (lowestKey s.keys = none ∧ s.poll r = s) := by
  unfold State.poll
  cases h : lowestKey s.keys with
  | some k => exact Or.inl ⟨k, rfl, rfl⟩
  | none => exact Or.inr ⟨rfl, rfl⟩

/-! ### Register lists -/

theorem State.regsTo_length (s : State) (x : Reg) : (s.regsTo x).length = x.val + 1 := by
  have := x.isLt
  simp [State.regsTo]

theorem State.regsTo_getElem (s : State) (x : Reg) {k : Nat} (hk : k < (s.regsTo x).length) :
    (s.regsTo x)[k] = s.getV ⟨k, by have := State.regsTo_length s x; have := x.isLt; omega⟩ := by
  simp [State.regsTo, State.getV, Vector.get_eq_getElem]

/-- The registers after a list was loaded from register `k` on. -/
theorem fillRegs_get (v : Vector Byte 16) (k : Nat) (bytes : List Byte) (z : Reg) :
    (fillRegs v k bytes).get z = if k ≤ z.val then bytes.getD (z.val - k) (v.get z) else v.get z := by
  induction bytes generalizing v k with
  | nil => simp [fillRegs]
  | cons b bs ih =>
    rw [fillRegs, ih]
    have hz := z.isLt
    by_cases h1 : k + 1 ≤ z.val
    · have h2 : k ≤ z.val := by omega
      have h3 : k ≠ z.val := by omega
      obtain ⟨d, hd⟩ : ∃ d, z.val - k = d + 1 := ⟨z.val - (k + 1), by omega⟩
      have h4 : z.val - (k + 1) = d := by omega
      simp [h1, h2, hd, h4, Vector.get_eq_getElem, h3]
    · by_cases h2 : k ≤ z.val
      · have h3 : z.val = k := by omega
        simp [Vector.get_eq_getElem, h3]
      · have h3 : k ≠ z.val := by omega
        simp [h1, h2, Vector.get_eq_getElem, h3]

/-! ### The other steps -/

/-- `load_rom`: refused, RomTooLarge with memory as it was, or the bytes copied. -/
theorem State.loadRom_cases (s : State) (bytes : List Byte) :
    ((s.phase ≠ .fresh ∨ s.isFaulted = true) ∧ s.loadRom bytes = .refused .loadRomRefused) ∨
      (s.phase = .fresh ∧ s.isFaulted = false ∧ 0xE00 < bytes.length ∧
        s.loadRom bytes = .next ((s.raise .romTooLarge none none (some bytes.length)).setPhase .loaded)) ∨
      (s.phase = .fresh ∧ s.isFaulted = false ∧ bytes.length ≤ 0xE00 ∧
        s.loadRom bytes = .next ((s.setMem (s.mem.writeList 0x200 bytes)).setPhase .loaded)) := by
  unfold State.loadRom
  have hr : Config.romMax = 0xE00 := rfl
  by_cases h : (decide (s.phase ≠ .fresh) || s.isFaulted) = true
  · exact Or.inl ⟨by simpa using h, if_pos h⟩
  · refine Or.inr ?_
    have h' : s.phase = .fresh ∧ s.isFaulted = false := by simpa using h
    rw [if_neg h]
    by_cases h3 : Config.romMax < bytes.length
    · exact Or.inl ⟨h'.1, h'.2, by omega, if_pos h3⟩
    · exact Or.inr ⟨h'.1, h'.2, by omega, if_neg h3⟩

@[simp] theorem finishStep_next (s : State) : finishStep (.next s) = .next s.consume := rfl

/-- A step that answers a next state: its trigger's step answered one, and the trigger was consumed. -/
theorem step_next_iff (s t : State) :
    step s = .next t ↔ ∃ s', s.perform s.trigger = .next s' ∧ t = s'.consume := by
  unfold step stepMachine
  cases h : s.perform s.trigger with
  | next s' => simp [eq_comm]
  | fault r => simp [finishStep]
  | refused r => simp [finishStep]

/-- A step whose trigger is a cycle. -/
theorem step_cycle {s : State} {keys : BitVec 16} {rnd : Byte} (h : s.trigger = .cpuCycle keys rnd) :
    step s = finishStep s.cpuCycle := by
  simp [step, stepMachine, h, State.perform]

/-- A cycle, by the run state it finds (40 R100). -/
theorem State.cpuCycle_running {s : State} (h : s.run = .running) :
    s.cpuCycle = (s.setPhase .started).runningCycle := by
  simp [State.cpuCycle, h]

theorem State.cpuCycle_awaitingKey {s : State} {r : Reg} (h : s.run = .awaitingKey r) :
    s.cpuCycle = .next (s.poll r) := by
  simp [State.cpuCycle, h]

theorem State.cpuCycle_faulted {s : State} {rec : FaultRecord} (h : s.run = .faulted rec) : s.cpuCycle = .next s := by
  simp [State.cpuCycle, h]

end Sys2Proof.Machine
end

