-- ==== Sys2Proof/Laws/PerInstr.lean ====
section
/-! SUPPORT. One lemma an instruction. Family `EncodingInRow`: the word of an instruction lies in the row of the opcode
map that 30 R75 gives it (`op AND mask = match`). -/

namespace Sys2Proof

theorem mask_formatNnn (g : Nibble) (nnn : Addr) : formatNnn g nnn &&& 0xF000#16 = formatNnn g 0 := by
  refine BitVec.eq_of_getLsbD_eq fun k hk => ?_
  rw [BitVec.getLsbD_and, getLsbD_formatNnn, getLsbD_formatNnn]
  interval_cases k <;> simp

theorem mask_formatXkk (g : Nibble) (x : Reg) (kk : Byte) : formatXkk g x kk &&& 0xF000#16 = formatXkk g 0 0 := by
  refine BitVec.eq_of_getLsbD_eq fun k hk => ?_
  rw [BitVec.getLsbD_and, getLsbD_formatXkk, getLsbD_formatXkk]
  interval_cases k <;> simp [fieldOf]

theorem mask_formatX (g : Nibble) (x : Reg) (kk : Byte) : formatXkk g x kk &&& 0xF0FF#16 = formatXkk g 0 kk := by
  refine BitVec.eq_of_getLsbD_eq fun k hk => ?_
  rw [BitVec.getLsbD_and, getLsbD_formatXkk, getLsbD_formatXkk]
  interval_cases k <;> simp [fieldOf]

theorem mask_formatXyn (g : Nibble) (x y : Reg) (n : Nibble) :
    formatXyn g x y n &&& 0xF000#16 = formatXyn g 0 0 0 := by
  refine BitVec.eq_of_getLsbD_eq fun k hk => ?_
  rw [BitVec.getLsbD_and, getLsbD_formatXyn, getLsbD_formatXyn]
  interval_cases k <;> simp [fieldOf]

theorem mask_formatXy (g : Nibble) (x y : Reg) (n : Nibble) :
    formatXyn g x y n &&& 0xF00F#16 = formatXyn g 0 0 n := by
  refine BitVec.eq_of_getLsbD_eq fun k hk => ?_
  rw [BitVec.getLsbD_and, getLsbD_formatXyn, getLsbD_formatXyn]
  interval_cases k <;> simp [fieldOf]

/-- The word of `i` lies in `i`'s row of the opcode map. -/
def Laws.EncodingInRow.Statement (i : Instr) : Prop := i.row.admits (encode i) = true

theorem Laws.EncodingInRow.cls : Laws.EncodingInRow.Statement .cls :=
  rfl

theorem Laws.EncodingInRow.ret : Laws.EncodingInRow.Statement .ret :=
  rfl

theorem Laws.EncodingInRow.jpNnn (nnn : Addr) : Laws.EncodingInRow.Statement (.jpNnn nnn) :=
  beq_iff_eq.2 (mask_formatNnn _ nnn)

theorem Laws.EncodingInRow.callNnn (nnn : Addr) : Laws.EncodingInRow.Statement (.callNnn nnn) :=
  beq_iff_eq.2 (mask_formatNnn _ nnn)

theorem Laws.EncodingInRow.seVxKk (x : Reg) (kk : Byte) : Laws.EncodingInRow.Statement (.seVxKk x kk) :=
  beq_iff_eq.2 (mask_formatXkk _ x kk)

theorem Laws.EncodingInRow.sneVxKk (x : Reg) (kk : Byte) : Laws.EncodingInRow.Statement (.sneVxKk x kk) :=
  beq_iff_eq.2 (mask_formatXkk _ x kk)

theorem Laws.EncodingInRow.seVxVy (x y : Reg) : Laws.EncodingInRow.Statement (.seVxVy x y) :=
  beq_iff_eq.2 (mask_formatXy _ x y _)

theorem Laws.EncodingInRow.ldVxKk (x : Reg) (kk : Byte) : Laws.EncodingInRow.Statement (.ldVxKk x kk) :=
  beq_iff_eq.2 (mask_formatXkk _ x kk)

theorem Laws.EncodingInRow.addVxKk (x : Reg) (kk : Byte) : Laws.EncodingInRow.Statement (.addVxKk x kk) :=
  beq_iff_eq.2 (mask_formatXkk _ x kk)

theorem Laws.EncodingInRow.ldVxVy (x y : Reg) : Laws.EncodingInRow.Statement (.ldVxVy x y) :=
  beq_iff_eq.2 (mask_formatXy _ x y _)

theorem Laws.EncodingInRow.orVxVy (x y : Reg) : Laws.EncodingInRow.Statement (.orVxVy x y) :=
  beq_iff_eq.2 (mask_formatXy _ x y _)

theorem Laws.EncodingInRow.andVxVy (x y : Reg) : Laws.EncodingInRow.Statement (.andVxVy x y) :=
  beq_iff_eq.2 (mask_formatXy _ x y _)

theorem Laws.EncodingInRow.xorVxVy (x y : Reg) : Laws.EncodingInRow.Statement (.xorVxVy x y) :=
  beq_iff_eq.2 (mask_formatXy _ x y _)

theorem Laws.EncodingInRow.addVxVy (x y : Reg) : Laws.EncodingInRow.Statement (.addVxVy x y) :=
  beq_iff_eq.2 (mask_formatXy _ x y _)

theorem Laws.EncodingInRow.subVxVy (x y : Reg) : Laws.EncodingInRow.Statement (.subVxVy x y) :=
  beq_iff_eq.2 (mask_formatXy _ x y _)

theorem Laws.EncodingInRow.shrVx (x y : Reg) : Laws.EncodingInRow.Statement (.shrVx x y) :=
  beq_iff_eq.2 (mask_formatXy _ x y _)

theorem Laws.EncodingInRow.subnVxVy (x y : Reg) : Laws.EncodingInRow.Statement (.subnVxVy x y) :=
  beq_iff_eq.2 (mask_formatXy _ x y _)

theorem Laws.EncodingInRow.shlVx (x y : Reg) : Laws.EncodingInRow.Statement (.shlVx x y) :=
  beq_iff_eq.2 (mask_formatXy _ x y _)

theorem Laws.EncodingInRow.sneVxVy (x y : Reg) : Laws.EncodingInRow.Statement (.sneVxVy x y) :=
  beq_iff_eq.2 (mask_formatXy _ x y _)

theorem Laws.EncodingInRow.ldINnn (nnn : Addr) : Laws.EncodingInRow.Statement (.ldINnn nnn) :=
  beq_iff_eq.2 (mask_formatNnn _ nnn)

theorem Laws.EncodingInRow.jpV0Nnn (nnn : Addr) : Laws.EncodingInRow.Statement (.jpV0Nnn nnn) :=
  beq_iff_eq.2 (mask_formatNnn _ nnn)

theorem Laws.EncodingInRow.rndVxKk (x : Reg) (kk : Byte) : Laws.EncodingInRow.Statement (.rndVxKk x kk) :=
  beq_iff_eq.2 (mask_formatXkk _ x kk)

theorem Laws.EncodingInRow.drwVxVyN (x y : Reg) (n : Nibble) : Laws.EncodingInRow.Statement (.drwVxVyN x y n) :=
  beq_iff_eq.2 (mask_formatXyn _ x y n)

theorem Laws.EncodingInRow.skpVx (x : Reg) : Laws.EncodingInRow.Statement (.skpVx x) :=
  beq_iff_eq.2 (mask_formatX _ x _)

theorem Laws.EncodingInRow.sknpVx (x : Reg) : Laws.EncodingInRow.Statement (.sknpVx x) :=
  beq_iff_eq.2 (mask_formatX _ x _)

theorem Laws.EncodingInRow.ldVxDt (x : Reg) : Laws.EncodingInRow.Statement (.ldVxDt x) :=
  beq_iff_eq.2 (mask_formatX _ x _)

theorem Laws.EncodingInRow.ldVxK (x : Reg) : Laws.EncodingInRow.Statement (.ldVxK x) :=
  beq_iff_eq.2 (mask_formatX _ x _)

theorem Laws.EncodingInRow.ldDtVx (x : Reg) : Laws.EncodingInRow.Statement (.ldDtVx x) :=
  beq_iff_eq.2 (mask_formatX _ x _)

theorem Laws.EncodingInRow.ldStVx (x : Reg) : Laws.EncodingInRow.Statement (.ldStVx x) :=
  beq_iff_eq.2 (mask_formatX _ x _)

theorem Laws.EncodingInRow.addIVx (x : Reg) : Laws.EncodingInRow.Statement (.addIVx x) :=
  beq_iff_eq.2 (mask_formatX _ x _)

theorem Laws.EncodingInRow.ldFVx (x : Reg) : Laws.EncodingInRow.Statement (.ldFVx x) :=
  beq_iff_eq.2 (mask_formatX _ x _)

theorem Laws.EncodingInRow.ldBVx (x : Reg) : Laws.EncodingInRow.Statement (.ldBVx x) :=
  beq_iff_eq.2 (mask_formatX _ x _)

theorem Laws.EncodingInRow.ldMemIVx (x : Reg) : Laws.EncodingInRow.Statement (.ldMemIVx x) :=
  beq_iff_eq.2 (mask_formatX _ x _)

theorem Laws.EncodingInRow.ldVxMemI (x : Reg) : Laws.EncodingInRow.Statement (.ldVxMemI x) :=
  beq_iff_eq.2 (mask_formatX _ x _)

end Sys2Proof
end

