-- ==== Sys2Proof/Laws/Sprite.lean ====
section
/-! SUPPORT. What the parts of the sprite engine do: one cell, one set bit, one row. -/

namespace Sys2Proof.Machine

/-- Complementing a cell complements that cell and no other. -/
@[simp] theorem pixel_flipPixel (fb : Vector (BitVec 64) 32) (cx px : Fin 64) (cy py : Fin 32) :
    pixel (flipPixel fb cx cy) px py = (pixel fb px py ^^ decide (px = cx ∧ py = cy)) := by
  have hget : ∀ (v : Vector (BitVec 64) 32) (k : Fin 32), v.get k = v[k.val] := fun _ _ => rfl
  by_cases h : py = cy
  · subst h
    by_cases h' : px = cx
    · simp [pixel, flipPixel, hget, BitVec.getElem_twoPow, h']
    · have : ¬ px.val = cx.val := fun h => h' (Fin.ext h)
      simp [pixel, flipPixel, hget, BitVec.getElem_twoPow, h', this]
  · have : cy.val ≠ py.val := fun h' => h (Fin.ext h'.symm)
    simp [pixel, flipPixel, hget, h, this]

/-- Two framebuffers with the same cells are the same. -/
theorem fb_ext {fb fb' : Vector (BitVec 64) 32} (h : ∀ cx cy, pixel fb cx cy = pixel fb' cx cy) : fb = fb' := by
  apply Vector.ext
  intro y hy
  apply BitVec.eq_of_getLsbD_eq
  intro x hx
  exact h ⟨x, hx⟩ ⟨y, hy⟩

/-- Eight columns never meet: they wrap to different cells. -/
theorem wrapX_inj {x : Byte} {c d : Nat} (hc : c < 8) (hd : d < 8) (h : wrapX x c = wrapX x d) : c = d := by
  have := congrArg Fin.val h
  simp only [wrapX] at this
  omega

/-- Fifteen rows never meet. -/
theorem wrapY_inj {y : Byte} {r q : Nat} (hr : r < 16) (hq : q < 16) (h : wrapY y r = wrapY y q) : r = q := by
  have := congrArg Fin.val h
  simp only [wrapY] at this
  omega

/-- A set bit among the first `n` columns of the byte `b`, drawn at `x`, lies over column `px`. -/
def bitOver (x b : Byte) (n : Nat) (px : Fin 64) : Bool :=
  (List.range n).any fun col => b.getLsbD (7 - col) && decide (px = wrapX x col)

/-- `bitOver` as a proposition. -/
theorem bitOver_iff {x b : Byte} {n : Nat} {px : Fin 64} :
    bitOver x b n px = true ↔ ∃ col, col < n ∧ b.getLsbD (7 - col) = true ∧ px = wrapX x col := by
  simp [bitOver]

/-- One more column. -/
theorem bitOver_succ (x b : Byte) (n : Nat) (px : Fin 64) :
    bitOver x b (n + 1) px = (bitOver x b n px || (b.getLsbD (7 - n) && decide (px = wrapX x n))) := by
  simp only [bitOver, List.range_succ, List.any_append, List.any_cons, List.any_nil, Bool.or_false]

/-- No earlier column lies over the cell of a column. -/
theorem bitOver_fresh (x b : Byte) {n : Nat} (hn : n < 8) : bitOver x b n (wrapX x n) = false := by
  rw [Bool.eq_false_iff, ne_eq, bitOver_iff]
  rintro ⟨col, h1, _, h3⟩
  have := wrapX_inj hn (by omega) h3
  omega

/-- The first `n` columns of a row, as one update of the cells. -/
theorem pixel_drawBits (x : Byte) (cy : Fin 32) (b : Byte) (c : Canvas) (px : Fin 64) (py : Fin 32) :
    ∀ n, n ≤ 8 → pixel ((List.range n).foldl (drawBit x cy b) c).fb px py =
      (pixel c.fb px py ^^ (decide (py = cy) && bitOver x b n px)) := by
  intro n
  induction n with
  | zero => simp [bitOver]
  | succ n ih =>
    intro hn
    have ih := ih (by omega)
    rw [List.range_succ, List.foldl_append, List.foldl_cons, List.foldl_nil, bitOver_succ]
    generalize (List.range n).foldl (drawBit x cy b) c = d at ih ⊢
    by_cases hb : b.getLsbD (7 - n) = true
    · rw [drawBit, if_pos hb, Canvas.toggle, pixel_flipPixel, ih, hb]
      by_cases hx : px = wrapX x n
      · rw [hx, bitOver_fresh x b (by omega)]
        simp
      · simp [hx]
    · rw [drawBit, if_neg hb, ih]
      simp [hb]

/-- The collision result of the first `n` columns of a row, told from the cells before the row. -/
theorem hit_drawBits (x : Byte) (cy : Fin 32) (b : Byte) (c : Canvas) :
    ∀ n, n ≤ 8 → (((List.range n).foldl (drawBit x cy b) c).hit = true ↔
      c.hit = true ∨ ∃ col, col < n ∧ b.getLsbD (7 - col) = true ∧ pixel c.fb (wrapX x col) cy = true) := by
  intro n
  induction n with
  | zero => simp
  | succ n ih =>
    intro hn
    have ih := ih (by omega)
    have hp := pixel_drawBits x cy b c (wrapX x n) cy n (by omega)
    rw [bitOver_fresh x b (by omega), Bool.and_false, Bool.xor_false] at hp
    rw [List.range_succ, List.foldl_append, List.foldl_cons, List.foldl_nil]
    generalize (List.range n).foldl (drawBit x cy b) c = d at ih hp ⊢
    simp only [Nat.lt_succ_iff_lt_or_eq, or_and_right, exists_or, exists_eq_left]
    by_cases hb : b.getLsbD (7 - n) = true
    · rw [drawBit, if_pos hb, Canvas.toggle, Bool.or_eq_true, hp, ih, hb]
      simp [or_assoc]
    · rw [drawBit, if_neg hb, ih]
      simp [hb]

/-- One row: exactly the cells of row `cy` under its set bits are complemented. -/
theorem pixel_drawRow (x : Byte) (cy : Fin 32) (b : Byte) (c : Canvas) (px : Fin 64) (py : Fin 32) :
    pixel (drawRow x cy b c).fb px py = (pixel c.fb px py ^^ (decide (py = cy) && bitOver x b 8 px)) :=
  pixel_drawBits x cy b c px py 8 (Nat.le_refl 8)

/-- One row: a collision was noted before, or a set bit lies on a cell that was 1 before the row. -/
theorem hit_drawRow (x : Byte) (cy : Fin 32) (b : Byte) (c : Canvas) :
    (drawRow x cy b c).hit = true ↔
      c.hit = true ∨ ∃ col, col < 8 ∧ b.getLsbD (7 - col) = true ∧ pixel c.fb (wrapX x col) cy = true :=
  hit_drawBits x cy b c 8 (Nat.le_refl 8)

end Sys2Proof.Machine
end

