-- ==== Sys2Proof/Tests/Slice0.lean ====
section
/-! SUPPORT. The model's own tests. Expected results are the vectors of spec 95 (their numbers stand with each test) and
words written out from the patterns of 30 R75. At the end, a witness for the hypotheses of every obligation that has
hypotheses. -/

namespace Sys2Proof.Tests

open Sys2Proof Sys2Proof.Machine Sys2Proof.Spec

/-! ### Decoding: words written out bit by bit from the patterns of 30 R75, group by group -/

theorem test_decode_group_0 :
    decodeTableWord 16 0b0000_0000_1110_0000 = some .cls ∧ decodeTableWord 16 0b0000_0000_1110_1110 = some .ret := by
  decide

theorem test_decode_jumps_and_calls :
    decodeTableWord 16 0b0001_1010_1011_1100 = some (.jpNnn 0xABC) ∧
    decodeTableWord 16 0b0010_0011_0000_0001 = some (.callNnn 0x301) ∧
    decodeTableWord 16 0b1011_1111_1111_1110 = some (.jpV0Nnn 0xFFE) := by
  decide

theorem test_decode_skips :
    decodeTableWord 16 0b0011_1010_0100_0010 = some (.seVxKk 0xA 0x42) ∧
    decodeTableWord 16 0b0100_0101_1000_0001 = some (.sneVxKk 0x5 0x81) ∧
    decodeTableWord 16 0b0101_0001_0010_0000 = some (.seVxVy 1 2) ∧
    decodeTableWord 16 0b1001_1100_0011_0000 = some (.sneVxVy 0xC 3) := by
  decide

theorem test_decode_immediates :
    decodeTableWord 16 0b0110_1010_0111_1111 = some (.ldVxKk 0xA 0x7F) ∧
    decodeTableWord 16 0b0111_0001_1111_1110 = some (.addVxKk 1 0xFE) ∧
    decodeTableWord 16 0b1010_0001_0010_0011 = some (.ldINnn 0x123) ∧
    decodeTableWord 16 0b1100_0011_0000_1111 = some (.rndVxKk 3 0x0F) := by
  decide

theorem test_decode_group_8 :
    decodeTableWord 16 0b1000_0001_0010_0000 = some (.ldVxVy 1 2) ∧
    decodeTableWord 16 0b1000_0001_0010_0001 = some (.orVxVy 1 2) ∧
    decodeTableWord 16 0b1000_0001_0010_0010 = some (.andVxVy 1 2) ∧
    decodeTableWord 16 0b1000_0001_0010_0011 = some (.xorVxVy 1 2) ∧
    decodeTableWord 16 0b1000_0001_0010_0100 = some (.addVxVy 1 2) ∧
    decodeTableWord 16 0b1000_0001_0010_0101 = some (.subVxVy 1 2) ∧
    decodeTableWord 16 0b1000_0001_1110_0110 = some (.shrVx 1 0xE) ∧
    decodeTableWord 16 0b1000_0001_0010_0111 = some (.subnVxVy 1 2) ∧
    decodeTableWord 16 0b1000_0001_0010_1110 = some (.shlVx 1 2) := by
  decide

theorem test_decode_draw_and_keys :
    decodeTableWord 16 0b1101_0001_0010_0101 = some (.drwVxVyN 1 2 5) ∧
    decodeTableWord 16 0b1110_0010_1001_1110 = some (.skpVx 2) ∧
    decodeTableWord 16 0b1110_0010_1010_0001 = some (.sknpVx 2) := by
  decide

theorem test_decode_group_F :
    decodeTableWord 16 0b1111_0011_0000_0111 = some (.ldVxDt 3) ∧
    decodeTableWord 16 0b1111_0001_0000_1010 = some (.ldVxK 1) ∧
    decodeTableWord 16 0b1111_0011_0001_0101 = some (.ldDtVx 3) ∧
    decodeTableWord 16 0b1111_0100_0001_1000 = some (.ldStVx 4) ∧
    decodeTableWord 16 0b1111_0010_0001_1110 = some (.addIVx 2) ∧
    decodeTableWord 16 0b1111_0010_0010_1001 = some (.ldFVx 2) ∧
    decodeTableWord 16 0b1111_0000_0011_0011 = some (.ldBVx 0) ∧
    decodeTableWord 16 0b1111_0010_0101_0101 = some (.ldMemIVx 2) ∧
    decodeTableWord 16 0b1111_0010_0110_0101 = some (.ldVxMemI 2) := by
  decide

/-- U1 to U6: the checks on groups 0 and 5 refuse. -/
theorem test_ill_formed_groups_0_5 :
    [0x0000, 0x00E1, 0x00FE, 0x0123, 0x5001, 0x500F].map recognized = List.replicate 6 false ∧
    decodeTableWord 16 0x0123 = none ∧ decodeTableWord 16 0x5001 = none := by
  decide

/-- U7 to U10: the checks on groups 9 and 8 refuse. -/
theorem test_ill_formed_groups_8_9 :
    [0x9001, 0x8008, 0x800D, 0x800F].map recognized = List.replicate 4 false ∧
    decodeTableWord 16 0x9001 = none ∧ decodeTableWord 16 0x8008 = none := by
  decide

/-- U11 to U19: the checks on groups E and F refuse. -/
theorem test_ill_formed_groups_E_F :
    [0xE000, 0xE09F, 0xE1A2, 0xF000, 0xF01F, 0xF075, 0xF085, 0xF030, 0xFFFF].map recognized =
      List.replicate 9 false ∧
    decodeTableWord 16 0xE09F = none ∧ decodeTableWord 16 0xF075 = none := by
  decide

/-- 30 R70: an instruction is two bytes, so one byte is none. -/
theorem test_decode_truncated : decode [0x12] = .error .truncated ∧ decode [] = .error .truncated := by decide

/-- 20 R55: the high byte comes first; what follows the word is left. -/
theorem test_encode_bytes :
    encodeBytes (.jpNnn 0x456) = [0x14, 0x56] ∧ decode [0x14, 0x56, 0x99] = .ok (.jpNnn 0x456, [0x99]) := by
  decide

/-! ### The notation (30 R79) -/

/-- Program P2, with labels in the place of its addresses. -/
theorem test_assemble_P2 :
    Asm.assemble "LD I 0x300\nLD V0 0xFE\nCALL sub\nLD V2 [I]\nend: JP end\nsub: LD B V0\nRET".toList =
      .ok [0xA3, 0x00, 0x60, 0xFE, 0x22, 0x0A, 0xF2, 0x65, 0x12, 0x08, 0xF0, 0x33, 0x00, 0xEE] := by
  decide

/-- Data bytes, a comma, a decimal number; `SHR` with y = 0. -/
theorem test_assemble_data :
    Asm.assemble "DRW V0, V1, 2\nSHR VE\nDB 0xFF\nDB 129".toList = .ok [0xD0, 0x12, 0x8E, 0x06, 0xFF, 0x81] := by
  decide

/-- No row has these shapes; a number must fit its field. -/
theorem test_assemble_refuses :
    (Asm.assemble "SHR V1 V2".toList = .error (.badOperands "SHR".toList)) ∧
    (Asm.assemble "LD V0 256".toList = .error (.badOperands "LD".toList)) ∧
    (Asm.assemble "SYS 0x123".toList = .error (.unknownMnemonic "SYS".toList)) := by
  decide

/-! ### One step -/

/-- The reset state with a cycle and its inputs as the next trigger. -/
def base (keys : BitVec 16 := 0) (rnd : Byte := 0) : State := { State.reset with pending := [.cpuCycle keys rnd] }

/-- Some registers set. -/
def withRegs (s : State) (l : List (Reg × Byte)) : State := l.foldl (fun s p => s.setV p.1 p.2) s

/-- Some bytes of memory set. -/
def withBytes (s : State) (a : Nat) (bytes : List Byte) : State := s.setMem (s.mem.writeList a bytes)

/-- Some cells of the framebuffer complemented. -/
def withCells (s : State) (l : List (Fin 64 × Fin 32)) : State :=
  s.setFb (l.foldl (fun fb c => flipPixel fb c.1 c.2) s.fb)

/-- Another stack depth. -/
def withDepth (s : State) (sp : Fin 17) : State := { s with sp := sp }

/-- The step with the word at pc answers a next state of which the test holds. -/
def after (s : State) (w : Nat) (test : State → Bool) : Bool :=
  match step (s.withFetchWord 16 w) with
  | .next t => test t
  | _ => false

/-- The step answers a next state of which the test holds. -/
def afterStep (s : State) (test : State → Bool) : Bool :=
  match step s with
  | .next t => test t
  | _ => false

/-- A fault record of a fetched word. -/
def record (cause : Fault) (iaddr opcode : Word) (info : Option Nat) : Run :=
  .faulted ⟨cause, some iaddr, some opcode, info⟩

/-- G14. -/
theorem test_cls :
    after (withCells (withRegs base [(0xF, 1)]) [(0, 0), (63, 31)]) 0x00E0 (fun t =>
      t.fb == Vector.replicate 32 0 && t.getV 0xF == 1 && t.pc == 0x202) = true := by decide

/-- T5. -/
theorem test_ret :
    after ({ (withDepth base 1).setPc 0x300 with stack := base.stack.set 0 0x202 }) 0x00EE (fun t =>
      t.pc == 0x202 && t.sp == 0 && t.stack.get 0 == 0x202) = true := by decide

/-- T8. -/
theorem test_ret_empty :
    after base 0x00EE (fun t => t.run == record .stackUnderflow 0x200 0x00EE none && t.pc == 0x202 && t.sp == 0) =
      true := by decide

/-- T1. -/
theorem test_jp : after base 0x1ABC (fun t => t.pc == 0xABC && t.run == .running) = true := by decide

/-- T23: a fetch at 0xFFE. -/
theorem test_jp_top : after (base.setPc 0xFFE) 0x1456 (fun t => t.pc == 0x456) = true := by decide

/-- T6: the sixteenth level. -/
theorem test_call :
    after (withDepth base 15) 0x2ABC (fun t => t.pc == 0xABC && t.sp == 16 && t.stack.get 15 == 0x202) = true := by
  decide

/-- T7: the seventeenth level. -/
theorem test_call_full :
    after (withDepth base 16) 0x2ABC (fun t =>
      t.run == record .stackOverflow 0x200 0x2ABC none && t.pc == 0x202 && t.sp == 16) = true := by decide

/-- T9, T10. -/
theorem test_se_imm :
    after (withRegs base [(0xA, 0x42)]) 0x3A42 (fun t => t.pc == 0x204) = true ∧
    after (withRegs base [(0xA, 0x43)]) 0x3A42 (fun t => t.pc == 0x202) = true := by decide

/-- T24: the skipped word is never decoded. -/
theorem test_se_over_unrecognized :
    after (withBytes base 0x202 [0xFF, 0xFF]) 0x3000 (fun t => t.pc == 0x204 && t.run == .running) = true := by decide

/-- T11, T12. -/
theorem test_sne_imm :
    after (withRegs base [(0xA, 0x42)]) 0x4A42 (fun t => t.pc == 0x202) = true ∧
    after (withRegs base [(0xA, 0x43)]) 0x4A42 (fun t => t.pc == 0x204) = true := by decide

/-- T13, T14. -/
theorem test_se_reg :
    after (withRegs base [(1, 7), (2, 7)]) 0x5120 (fun t => t.pc == 0x204) = true ∧
    after (withRegs base [(1, 7), (2, 8)]) 0x5120 (fun t => t.pc == 0x202) = true := by decide

/-- T16, T17. -/
theorem test_sne_reg :
    after (withRegs base [(1, 7), (2, 7)]) 0x9120 (fun t => t.pc == 0x202) = true ∧
    after (withRegs base [(1, 7), (2, 8)]) 0x9120 (fun t => t.pc == 0x204) = true := by decide

/-- T20: not masked. -/
theorem test_jp_v0 : after (withRegs base [(0, 0xFF)]) 0xBFFF (fun t => t.pc == 0x10FE) = true := by decide

/-- A1, A2. -/
theorem test_ld_imm :
    after base 0x6A7F (fun t => t.getV 0xA == 0x7F && t.pc == 0x202) = true ∧
    after base 0x6F55 (fun t => t.getV 0xF == 0x55) = true := by decide

/-- A4. -/
theorem test_add_imm :
    after (withRegs base [(0, 0xFF), (0xF, 0x5A)]) 0x7001 (fun t => t.getV 0 == 0 && t.getV 0xF == 0x5A) = true := by
  decide

/-- A5: VF as the destination holds the sum. -/
theorem test_add_imm_vf : after (withRegs base [(0xF, 0xFF)]) 0x7F02 (fun t => t.getV 0xF == 1) = true := by decide

/-- A7. -/
theorem test_ld_reg :
    after (withRegs base [(1, 0x11), (2, 0x33)]) 0x8120 (fun t => t.getV 1 == 0x33 && t.getV 2 == 0x33) = true := by
  decide

/-- A9, A10, A11. -/
theorem test_or :
    after (withRegs base [(1, 0xF0), (2, 0x0F), (0xF, 1)]) 0x8121 (fun t => t.getV 1 == 0xFF && t.getV 0xF == 1) =
      true := by decide

theorem test_and :
    after (withRegs base [(1, 0xF0), (2, 0x3C), (0xF, 1)]) 0x8122 (fun t => t.getV 1 == 0x30 && t.getV 0xF == 1) =
      true := by decide

theorem test_xor :
    after (withRegs base [(1, 0xF0), (2, 0x3C), (0xF, 1)]) 0x8123 (fun t => t.getV 1 == 0xCC && t.getV 0xF == 1) =
      true := by decide

/-- A14. -/
theorem test_add :
    after (withRegs base [(0, 0x10), (1, 0x20), (0xF, 1)]) 0x8014 (fun t => t.getV 0 == 0x30 && t.getV 0xF == 0) =
      true := by decide

/-- A18, A20. -/
theorem test_add_vf :
    after (withRegs base [(0xF, 0xF0), (1, 0x20)]) 0x8F14 (fun t => t.getV 0xF == 1) = true ∧
    after (withRegs base [(1, 0xFF), (0xF, 1)]) 0x81F4 (fun t => t.getV 1 == 0 && t.getV 0xF == 1) = true := by decide

/-- A23. -/
theorem test_sub :
    after (withRegs base [(0, 3), (1, 5)]) 0x8015 (fun t => t.getV 0 == 0xFE && t.getV 0xF == 0) = true := by decide

/-- A25, A27. -/
theorem test_sub_vf :
    after (withRegs base [(2, 0x55)]) 0x8225 (fun t => t.getV 2 == 0 && t.getV 0xF == 1) = true ∧
    after (withRegs base [(0xF, 3), (1, 5)]) 0x8F15 (fun t => t.getV 0xF == 0) = true := by decide

/-- A36. -/
theorem test_shr :
    after (withRegs base [(1, 0xFF)]) 0x81E6 (fun t => t.getV 1 == 0x7F && t.getV 0xF == 1 && t.getV 0xE == 0) = true := by
  decide

/-- A38. -/
theorem test_shr_vf : after (withRegs base [(0xF, 2)]) 0x8F06 (fun t => t.getV 0xF == 0) = true := by decide

/-- A31. -/
theorem test_subn :
    after (withRegs base [(0, 5), (1, 3)]) 0x8017 (fun t => t.getV 0 == 0xFE && t.getV 0xF == 0) = true := by decide

/-- A33. -/
theorem test_subn_vf : after (withRegs base [(0xF, 9), (1, 3)]) 0x8F17 (fun t => t.getV 0xF == 0) = true := by decide

/-- A41. -/
theorem test_shl :
    after (withRegs base [(1, 0xFF)]) 0x812E (fun t => t.getV 1 == 0xFE && t.getV 0xF == 1 && t.getV 2 == 0) = true := by
  decide

/-- A42. -/
theorem test_shl_vf : after (withRegs base [(0xF, 0x80)]) 0x8F0E (fun t => t.getV 0xF == 1) = true := by decide

/-- X2. -/
theorem test_ld_i : after base 0xAFFF (fun t => t.i == 0xFFF && t.pc == 0x202) = true := by decide

/-- X4, X5. -/
theorem test_add_i :
    after ((withRegs base [(2, 1)]).setI 0xFFF) 0xF21E (fun t => t.i == 0x1000 && t.getV 0xF == 0) = true ∧
    after ((withRegs base [(2, 1), (0xF, 0x55)]).setI 0xFFFF) 0xF21E (fun t => t.i == 0 && t.getV 0xF == 0x55) = true := by
  decide

/-- X8, X11. -/
theorem test_rnd :
    after (base 0 0xA7) 0xC30F (fun t => t.getV 3 == 7) = true ∧
    after (base 0 0xC8) 0xCFFF (fun t => t.getV 0xF == 0xC8) = true := by decide

/-- G1: eight pixels, wrapped to the left edge; G5: a collision, and a lit cell outside the sprite. -/
theorem test_drw :
    after ((withBytes (withRegs base [(0, 60)]) 0x300 [0xFF]).setI 0x300) 0xD011 (fun t =>
      t.fb == (withCells base [(60, 0), (61, 0), (62, 0), (63, 0), (0, 0), (1, 0), (2, 0), (3, 0)]).fb &&
      t.getV 0xF == 0 && t.pc == 0x202) = true ∧
    after (withCells ((withBytes (withRegs base [(0, 10), (1, 5)]) 0x300 [0xF0]).setI 0x300) [(10, 5), (20, 5)]) 0xD011
      (fun t => t.fb == (withCells base [(11, 5), (12, 5), (13, 5), (20, 5)]).fb && t.getV 0xF == 1) = true := by decide

/-- G7, G9: no byte, no check; the second byte out of range. -/
theorem test_drw_edges :
    after ((withRegs base [(0xF, 1)]).setI 0xFFFF) 0xD010 (fun t =>
      t.fb == base.fb && t.getV 0xF == 0 && t.run == .running) = true ∧
    after ((withBytes (withRegs base [(0xF, 1)]) 0xFFF [0x80]).setI 0xFFF) 0xD012 (fun t =>
      t.run == record .addressOutOfRange 0x200 0xD012 (some 0x1000) && t.fb == base.fb && t.getV 0xF == 1) = true := by
  decide

/-- K2, K5. -/
theorem test_skp :
    after (withRegs (base 0xFFDF) [(2, 5)]) 0xE29E (fun t => t.pc == 0x202) = true ∧
    after (withRegs (base 0xFFFF) [(2, 0x10)]) 0xE29E (fun t =>
      t.run == record .keyIndexOutOfRange 0x200 0xE29E (some 0x10) && t.pc == 0x202) = true := by decide

/-- K8. -/
theorem test_skp_vf : after (withRegs (base 0x8000) [(0xF, 0xF)]) 0xEF9E (fun t => t.pc == 0x204) = true := by decide

/-- K3, K4. -/
theorem test_sknp :
    after (withRegs (base 0x0020) [(2, 5)]) 0xE2A1 (fun t => t.pc == 0x202) = true ∧
    after (withRegs (base 0x0000) [(2, 5)]) 0xE2A1 (fun t => t.pc == 0x204) = true := by decide

/-- K9. -/
theorem test_ld_from_dt :
    after (base.setDt 0x2A) 0xF307 (fun t => t.getV 3 == 0x2A && t.dt == 0x2A) = true := by decide

/-- K13: the executing cycle ignores the keys. -/
theorem test_ld_key :
    after (withRegs (base 0xFFFF) [(1, 0x77)]) 0xF10A (fun t =>
      t.run == .awaitingKey 1 && t.pc == 0x202 && t.getV 1 == 0x77) = true := by decide

/-- K15: the poll, with keys 3 and 7 down. -/
theorem test_poll :
    afterStep ((withRegs (base 0x0088) [(1, 0x77)]).setRun (.awaitingKey 1)) (fun t =>
      t.getV 1 == 3 && t.run == .running && t.pc == 0x200) = true := by decide

/-- K10. -/
theorem test_ld_dt : after (withRegs base [(3, 0x3C)]) 0xF315 (fun t => t.dt == 0x3C && t.st == 0) = true := by decide

/-- K11. -/
theorem test_ld_st :
    after (withRegs base [(4, 2)]) 0xF418 (fun t => t.st == 2 && t.dt == 0 && t.soundOn) = true := by decide

/-- M3, M5: all eight bits of the register. -/
theorem test_ld_f :
    after (withRegs base [(2, 0x0F)]) 0xF229 (fun t => t.i == 0x4B) = true ∧
    after (withRegs base [(2, 0xFF)]) 0xF229 (fun t => t.i == 0x4FB) = true := by decide

/-- M8: the last valid I. -/
theorem test_ld_b :
    after ((withRegs base [(0, 0xFF)]).setI 0xFFD) 0xF033 (fun t =>
      t.readByte 0xFFD == 2 && t.readByte 0xFFE == 5 && t.readByte 0xFFF == 5 && t.i == 0xFFD) = true := by decide

/-- M9: one too far. -/
theorem test_ld_b_out :
    after ((withRegs base [(0, 0xFF)]).setI 0xFFE) 0xF033 (fun t =>
      t.run == record .addressOutOfRange 0x200 0xF033 (some 0x1000) && t.readByte 0xFFE == 0 && t.readByte 0xFFF == 0) =
      true := by decide

/-- M12. -/
theorem test_dump :
    after ((withRegs base [(0, 0x11), (1, 0x22), (2, 0x33), (3, 0x44)]).setI 0x400) 0xF255 (fun t =>
      (List.range 4).map (fun k => t.readByte (0x400 + k)) == [0x11, 0x22, 0x33, 0x00] && t.i == 0x400) = true := by decide

/-- M14: no partial store. -/
theorem test_dump_out :
    after ((withRegs base [(0, 0xAA), (1, 0xBB)]).setI 0xFFF) 0xF155 (fun t =>
      t.run == record .addressOutOfRange 0x200 0xF155 (some 0x1000) && t.readByte 0xFFF == 0) = true := by decide

/-- M17. -/
theorem test_load :
    after ((withBytes (withRegs base [(3, 0x99)]) 0x300 [2, 5, 4, 7]).setI 0x300) 0xF265 (fun t =>
      (List.range 4).map (fun k => t.getV (Fin.ofNat 16 k)) == [2, 5, 4, 0x99] && t.i == 0x300) = true := by decide

/-- M19: no partial load. -/
theorem test_load_out :
    after ((withBytes (withRegs base [(0, 1), (1, 2)]) 0xFFF [0x5A]).setI 0xFFF) 0xF165 (fun t =>
      t.run == record .addressOutOfRange 0x200 0xF165 (some 0x1000) && t.getV 0 == 1 && t.getV 1 == 2) = true := by decide

/-! ### Steps that are not instructions -/

/-- U1: zeroed memory is no instruction. -/
theorem test_unrecognized :
    afterStep base (fun t => t.run == record .unrecognizedOpcode 0x200 0x0000 none && t.pc == 0x202) = true := by decide

/-- U20, U22: the fetch. -/
theorem test_fetch_out :
    afterStep (base.setPc 0xFFF) (fun t =>
      t.run == .faulted ⟨.addressOutOfRange, some 0xFFF, none, some 0x1000⟩ && t.pc == 0xFFF) = true ∧
    afterStep (base.setPc 0x10FE) (fun t =>
      t.run == .faulted ⟨.addressOutOfRange, some 0x10FE, none, some 0x10FE⟩ && t.pc == 0x10FE) = true := by decide

/-- TK3, and TK6 with the machine faulted. -/
theorem test_tick :
    afterStep ({ ((base.setDt 0xFF).setSt 1) with pending := [.timerTick] }) (fun t => t.dt == 0xFE && t.st == 0) =
      true ∧
    afterStep ({ ((base.setDt 5).setSt 2).setRun (record .stackUnderflow 0x200 0x00EE none) with
      pending := [.timerTick] }) (fun t => t.dt == 4 && t.st == 1 && t.isFaulted) = true := by decide

/-- B6: an odd length. -/
theorem test_load_rom :
    afterStep ({ base with pending := [.loadRom [0x60, 0x01, 0x12]] }) (fun t =>
      (List.range 4).map (fun k => t.readByte (0x200 + k)) == [0x60, 0x01, 0x12, 0x00] && t.phase == .loaded) = true := by
  decide

/-- 20 R52: glyph 7 of program P6. -/
theorem test_font :
    (List.range 5).map (fun k => State.reset.readByte (0x023 + k)) = [0xF0, 0x10, 0x20, 0x40, 0x40] := by decide

/-- 60 R201: the codes, in the order of its table; 0 without a fault. -/
theorem test_fault_codes :
    [Fault.romTooLarge, .unrecognizedOpcode, .stackOverflow, .stackUnderflow, .addressOutOfRange,
      .keyIndexOutOfRange].map (fun c => (base.setRun (.faulted ⟨c, none, none, none⟩)).faultCause) =
      [1, 2, 3, 4, 5, 6] ∧ base.faultCause = 0 := by decide

/-- The canonical form refuses a cell equal to the reset contents, two cells out of order, and an address that does not
exist. -/
theorem test_memory_form :
    Memory.wf [(0x000, 0xF0)] = false ∧ Memory.wf [(0x300, 1), (0x200, 1)] = false ∧ Memory.wf [(0x1000, 1)] = false ∧
    Memory.wf [(0x200, 1), (0xFFF, 2)] = true := by decide

/-! ### Witnesses: a state and operands that meet an obligation's hypotheses, every clause at a boundary -/

/-- A step that passes a test answers a next state. -/
theorem of_afterStep {s : State} {p : State → Bool} (h : afterStep s p = true) : ∃ t, step s = .next t ∧ p t = true := by
  unfold afterStep at h
  split at h
  · exact ⟨_, ‹_›, h⟩
  · simp at h

/-- `base` has a cycle next, whatever else is changed in it. -/
theorem base_isCycle (keys rnd) : isCycle (base keys rnd) := ⟨keys, rnd, rfl⟩

theorem witness_DecodeOfEncode : (Instr.shlVx 0xF 0xF).wellFormed = true := rfl

theorem witness_EncodeOfDecode : decodeWord 0x81E6 = .ok (.shrVx 1 0xE) := by decide

theorem witness_DecoderRejects : recognized 0x5001 = false ∧ recognized 0x5000 = true := by decide

theorem witness_ResetState : (79 : Nat) < 80 ∧ 80 ≤ (0xFFF : Nat) ∧ (0xFFF : Nat) ≤ 0xFFF := by decide

theorem witness_ResetFromAnyState :
    ({ base.setRun (record .stackOverflow 0x200 0x2ABC none) with pending := [.reset] } : State).trigger = .reset := rfl

/-- A state just after reset whose next trigger loads `n` bytes. -/
def loading (n : Nat) : State := { base with pending := [.loadRom (List.replicate n 0x12)] }

/-- The longest program that is accepted, and one byte more; as the first step after reset. -/
theorem witness_LoadRom :
    ((loading 0xE00).trigger = .loadRom (List.replicate 0xE00 0x12) ∧ (loading 0xE00).phase = .fresh ∧
      (loading 0xE00).isFaulted = false ∧ (loading 0xE00).mem.wf = true ∧
      (List.replicate 0xE00 (0x12 : Byte)).length ≤ 0xE00) ∧
    ((loading 0xE01).trigger = .loadRom (List.replicate 0xE01 0x12) ∧ (loading 0xE01).phase = .fresh ∧
      (loading 0xE01).isFaulted = false ∧ (loading 0xE01).mem.wf = true ∧
      0xE00 < (List.replicate 0xE01 (0x12 : Byte)).length) := by
  refine ⟨⟨rfl, rfl, rfl, rfl, ?_⟩, ⟨rfl, rfl, rfl, rfl, ?_⟩⟩
  · rw [List.length_replicate]
  · rw [List.length_replicate]; decide

/-- A load after a load, a load in Faulted; a load, a Running cycle and a tick after a load, each answering a next state. -/
theorem witness_LateLoadRom :
    (({ base with pending := [.loadRom []], phase := .loaded } : State).trigger = .loadRom [] ∧
      ({ base with pending := [.loadRom []], phase := .loaded } : State).phase ≠ .fresh) ∧
    (({ base.setRun (record .stackOverflow 0x200 0x2ABC none) with pending := [.loadRom []] } : State).isFaulted = true) ∧
    afterStep { base with pending := [.loadRom []] } (fun _ => true) = true ∧
    (isCycle base ∧ base.run = .running ∧ afterStep base (fun _ => true) = true) ∧
    (({ base with pending := [.timerTick], phase := .loaded } : State).phase ≠ .fresh ∧
      ({ base with pending := [.timerTick], phase := .loaded } : State).trigger ≠ .reset ∧
      afterStep { base with pending := [.timerTick], phase := .loaded } (fun _ => true) = true) :=
  ⟨⟨rfl, by decide⟩, rfl, by decide, ⟨base_isCycle _ _, rfl, by decide⟩, by decide⟩

/-- The last address a word can be fetched from. -/
theorem witness_StepRunsDecoded :
    isCycle (withBytes (base.setPc 0xFFE) 0xFFE [0x14, 0x56]) ∧
    (withBytes (base.setPc 0xFFE) 0xFFE [0x14, 0x56]).run = .running ∧
    (withBytes (base.setPc 0xFFE) 0xFFE [0x14, 0x56]).pc.toNat ≤ 0xFFE ∧ (Instr.jpNnn 0x456).wellFormed = true ∧
    decode [(withBytes (base.setPc 0xFFE) 0xFFE [0x14, 0x56]).readByte 0xFFE,
      (withBytes (base.setPc 0xFFE) 0xFFE [0x14, 0x56]).readByte 0xFFF] = .ok (.jpNnn 0x456, []) :=
  ⟨⟨0, 0, rfl⟩, rfl, by decide, rfl, by decide⟩

/-- Each run state; the first address that cannot be fetched and the last that can; a word that is no instruction and
one that is. -/
theorem witness_Cycle :
    (isCycle (base.setRun (record .stackOverflow 0x200 0x2ABC none)) ∧ isCycle (base.setRun (.awaitingKey 1))) ∧
    (isCycle (base.setPc 0xFFF) ∧ (base.setPc 0xFFF).run = .running ∧ 0xFFE < (base.setPc 0xFFF).pc.toNat) ∧
    (isCycle (base.setPc 0xFFE) ∧ (base.setPc 0xFFE).pc.toNat ≤ 0xFFE ∧ recognized (wordAtPc (base.setPc 0xFFE)) = false) ∧
    (isCycle (withBytes (base.setPc 0xFFE) 0xFFE [0x14, 0x56]) ∧
      recognized (wordAtPc (withBytes (base.setPc 0xFFE) 0xFFE [0x14, 0x56])) = true) :=
  ⟨⟨⟨0, 0, rfl⟩, ⟨0, 0, rfl⟩⟩, ⟨⟨0, 0, rfl⟩, rfl, by decide⟩, ⟨⟨0, 0, rfl⟩, by decide, by decide⟩,
    ⟨⟨0, 0, rfl⟩, by decide⟩⟩

/-- One state for each fault an instruction raises, and a state next to it where it does not. -/
theorem witness_FaultsTable :
    base.run = .running ∧ faultOf .ret base = some (.stackUnderflow, none) ∧ faultOf .ret (withDepth base 1) = none ∧
    faultOf (.callNnn 0) (withDepth base 16) = some (.stackOverflow, none) ∧
    faultOf (.callNnn 0) (withDepth base 15) = none ∧
    faultOf (.drwVxVyN 0 0 2) (base.setI 0xFFF) = some (.addressOutOfRange, some 0x1000) ∧
    faultOf (.drwVxVyN 0 0 1) (base.setI 0xFFF) = none ∧ faultOf (.drwVxVyN 0 0 0) (base.setI 0xFFFF) = none ∧
    faultOf (.skpVx 2) (withRegs base [(2, 0x10)]) = some (.keyIndexOutOfRange, some 0x10) ∧
    faultOf (.skpVx 2) (withRegs base [(2, 0x0F)]) = none := by decide

/-- The cycle at zeroed memory ends in a fault. -/
theorem witness_FaultRecord :
    ∃ s t rec, isCycle s ∧ s.run = .running ∧ s.pc.toNat ≤ 0xFFE ∧ step s = .next t ∧ t.run = .faulted rec := by
  obtain ⟨t, ht, hp⟩ := of_afterStep test_unrecognized
  refine ⟨base, t, ⟨.unrecognizedOpcode, some 0x200, some 0, none⟩, base_isCycle _ _, rfl, by decide, ht, ?_⟩
  simp only [Bool.and_eq_true, beq_iff_eq] at hp
  exact hp.1

theorem witness_CallFull : (withDepth base 16).sp.val = 16 := rfl

theorem witness_RetEmpty : base.sp.val = 0 := rfl

/-- In Faulted: a tick, a cycle and a reset, each answering a next state. -/
theorem witness_OnlyReset :
    (∃ rec, (base.setRun (record .stackOverflow 0x200 0x2ABC none)).run = .faulted rec) ∧
    isCycle (base.setRun (record .stackOverflow 0x200 0x2ABC none)) ∧
    ([Trigger.cpuCycle 0 0, .timerTick, .reset].all fun tr =>
      afterStep { base.setRun (record .stackOverflow 0x200 0x2ABC none) with pending := [tr] } fun _ => true) = true :=
  ⟨⟨_, rfl⟩, ⟨0, 0, rfl⟩, by decide⟩

theorem witness_TimerTick : ({ base.setDt 1 with pending := [.timerTick] } : State).trigger = .timerTick := rfl

/-- Keys 3 and 7 down: the lowest is 3; and no key down. -/
theorem witness_Poll :
    isCycle ((base 0x0088).setRun (.awaitingKey 0xF)) ∧
    ((base 0x0088).setRun (.awaitingKey 0xF)).run = .awaitingKey 0xF ∧
    (((base 0x0088).setRun (.awaitingKey 0xF)).keys.getLsbD 3 = true ∧
      ∀ j, j < 3 → ((base 0x0088).setRun (.awaitingKey 0xF)).keys.getLsbD j = false) ∧
    (∀ k, k < 16 → ((base 0).setRun (.awaitingKey 0xF)).keys.getLsbD k = false) :=
  ⟨⟨_, _, rfl⟩, rfl, by decide, by decide⟩

/-- Program P4's wait, with two polls that find no key; each cycle brings a random byte of its own. -/
theorem witness_KeyWait :
    ∃ (s : State) (keys0 keys : BitVec 16) (rnd0 rnd : Byte) (rnds : List Byte) (rest : List Trigger),
      s.run = .running ∧ s.pc.toNat ≤ 0xFFE ∧ decodeWord (wordAtPc s) = .ok (.ldVxK 1) ∧
      s.pending = .cpuCycle keys0 rnd0 :: (rnds.map (.cpuCycle 0) ++ .cpuCycle keys rnd :: rest) ∧
      keys.getLsbD 3 = true ∧ ∀ j, j < 3 → keys.getLsbD j = false :=
  ⟨{ withBytes base 0x200 [0xF1, 0x0A] with
      pending := [.cpuCycle 0 0xA7, .cpuCycle 0 1, .cpuCycle 0 2, .cpuCycle 0x0088 3, .timerTick] },
    0, 0x0088, 0xA7, 3, [1, 2], [.timerTick], rfl, by decide, by decide, rfl, by decide, by decide⟩

/-- Key 15, down and up. -/
theorem witness_KeySkips :
    ((withRegs (base 0x8000) [(2, 0xF)]).getV 2).toNat ≤ 0xF ∧
    (withRegs (base 0x8000) [(2, 0xF)]).keys.getLsbD 15 = true ∧ (withRegs (base 0) [(2, 0xF)]).keys.getLsbD 15 = false ∧
    ∃ keys rnd rest, (withRegs (base 0x8000) [(2, 0xF)]).pending = .cpuCycle keys rnd :: rest :=
  ⟨by decide, by decide, by decide, _, _, _, rfl⟩

theorem witness_KeySkipsFault : 0xF < ((withRegs base [(2, 0x10)]).getV 2).toNat := by decide

theorem witness_RetPops : (withDepth base 16).sp.val = (15 : Fin 16).val + 1 ∧ (withDepth base 1).sp.val = (0 : Fin 16).val + 1 := by
  decide

theorem witness_CallPushes : (withDepth base 15).sp.val = (15 : Fin 16).val ∧ (withDepth base 0).sp.val = (0 : Fin 16).val := by
  decide

theorem witness_RetUndoesCall : ∃ t, (withDepth base 15).sp.val < 16 ∧ exec (.callNnn 0x300) (withDepth base 15) = .next t :=
  ⟨_, by decide, rfl⟩

/-- Equal and different, for both kinds of skip. -/
theorem witness_Skips :
    (withRegs base [(0, 0x42)]).getV 0 = 0x42 ∧ (withRegs base [(0, 0x42)]).getV 0 ≠ 0x43 ∧
    (withRegs base [(0, 7), (1, 7)]).getV 0 = (withRegs base [(0, 7), (1, 7)]).getV 1 ∧
    (withRegs base [(0, 7), (1, 8)]).getV 0 ≠ (withRegs base [(0, 7), (1, 8)]).getV 1 := by decide

/-- A register that is not VF; both sides of the carry and of the borrow; a bit of a byte. -/
theorem witness_Arithmetic :
    (0 : Reg) ≠ 0xF ∧ 255 < ((withRegs base [(0, 0xFF), (1, 1)]).getV 0).toNat + ((withRegs base [(0, 0xFF), (1, 1)]).getV 1).toNat ∧
    ¬ 255 < ((withRegs base [(0, 0xFE), (1, 1)]).getV 0).toNat + ((withRegs base [(0, 0xFE), (1, 1)]).getV 1).toNat ∧
    ((withRegs base [(0, 7), (1, 7)]).getV 1).toNat ≤ ((withRegs base [(0, 7), (1, 7)]).getV 0).toNat ∧
    ¬ ((withRegs base [(0, 7), (1, 8)]).getV 1).toNat ≤ ((withRegs base [(0, 7), (1, 8)]).getV 0).toNat ∧ 7 < 8 := by
  decide

theorem witness_Random : ∃ keys rnd rest, (base 0 0xA7).pending = .cpuCycle keys rnd :: rest := ⟨_, _, _, rfl⟩

/-- A cell set by a sprite drawn at (60, 31), over both edges: row 1, column 7 lands on (3, 0). -/
theorem spriteSets_corner : spriteSets 60 31 [0xFF, 0x81] 3 0 := ⟨1, 7, by decide, by decide, by decide, by decide, by decide⟩

/-- Fifteen rows; a cell the sprite sets, lit and unlit; a cell it does not set. -/
theorem witness_SpriteEngine :
    (List.replicate 15 (0xFF : Byte)).length ≤ 15 ∧ spriteSets (60 : Byte).toNat (31 : Byte).toNat [0xFF, 0x81] 3 0 ∧
    pixel (withCells base [(3, 0)]).fb 3 0 = true ∧ pixel base.fb 3 0 = false ∧
    ¬ spriteSets (60 : Byte).toNat (31 : Byte).toNat [] 3 0 := by
  refine ⟨by decide, spriteSets_corner, by decide, by decide, ?_⟩
  rintro ⟨row, col, h, _⟩
  exact absurd h (Nat.not_lt_zero row)

/-- No byte with I at the top; the last byte of memory; a set cell that was 1, and a sprite all of whose cells were 0. -/
theorem witness_Draw :
    ((0 : Nibble).toNat = 0 ∨ (base.setI 0xFFFF).i.toNat + (0 : Nibble).toNat - 1 ≤ 0xFFF) ∧
    ((1 : Nibble).toNat = 0 ∨ (base.setI 0xFFF).i.toNat + (1 : Nibble).toNat - 1 ≤ 0xFFF) ∧
    (∃ cx cy, spriteSets (base.getV 0).toNat (base.getV 1).toNat (spriteRows base 1) cx cy ∧
      pixel (withCells base [(0, 0)]).fb cx cy = true) ∧
    (∀ cx cy, spriteSets (base.getV 0).toNat (base.getV 1).toNat (spriteRows base 1) cx cy → pixel base.fb cx cy = false) := by
  refine ⟨by decide, by decide, ⟨0, 0, ⟨0, 0, by decide, by decide, by decide, by decide, by decide⟩, by decide⟩, ?_⟩
  have h : ∀ cy : Fin 32, base.fb.get cy = 0 := by decide
  intro cx cy _
  rw [pixel, h]; exact BitVec.getLsbD_zero

/-- A sprite that sets a cell, on a clear framebuffer; and a sprite with no bit set. -/
theorem witness_DrawTwice :
    ([0xFF, 0x81] : List Byte).length ≤ 15 ∧
    (∃ cx cy, spriteSets (60 : Byte).toNat (31 : Byte).toNat [0xFF, 0x81] cx cy) ∧
    (∀ cx cy, spriteSets (60 : Byte).toNat (31 : Byte).toNat [0xFF, 0x81] cx cy → pixel base.fb cx cy = false) ∧
    (∀ row ∈ ([0, 0] : List Byte), row = 0) := by
  refine ⟨by decide, ⟨3, 0, spriteSets_corner⟩, ?_, by decide⟩
  have h : ∀ cy : Fin 32, base.fb.get cy = 0 := by decide
  intro cx cy _
  rw [pixel, h]; exact BitVec.getLsbD_zero

/-- A record of each of the six causes, and a state without one. -/
theorem witness_Outputs :
    ([Fault.romTooLarge, .unrecognizedOpcode, .stackOverflow, .stackUnderflow, .addressOutOfRange,
      .keyIndexOutOfRange].all fun c => (base.setRun (record c 0x200 0 none)).run == record c 0x200 0 none) = true ∧
    (∀ rec, base.run ≠ .faulted rec) := ⟨by decide, fun _ h => nomatch h⟩

theorem witness_StoreDecimal : (base.setI 0xFFD).mem.wf = true ∧ (base.setI 0xFFD).i.toNat + 2 ≤ 0xFFF := by decide

/-- Dump and load: sixteen registers up to the last byte; registers on both sides of x. -/
theorem witness_DumpAndLoad :
    (base.setI 0xFF0).mem.wf = true ∧ (base.setI 0xFF0).i.toNat + (0xF : Reg).val ≤ 0xFFF ∧
    (2 : Reg).val ≤ (2 : Reg).val ∧ (2 : Reg).val < (3 : Reg).val := by decide

/-- One byte too far, for each of the four. -/
theorem witness_IndexAccess :
    (0 < (2 : Nibble).toNat ∧ 0xFFF < (base.setI 0xFFF).i.toNat + (2 : Nibble).toNat - 1) ∧
    0xFFF < (base.setI 0xFFE).i.toNat + 2 ∧ 0xFFF < (base.setI 0xFFF).i.toNat + (1 : Reg).val := by decide

/-- The last valid I of each store; a fetch of the last word, and one of an old and a stored byte. -/
theorem witness_StoredBytes :
    (base.setI 0xFFD).mem.wf = true ∧ (base.setI 0xFFD).i.toNat + 2 ≤ 0xFFF ∧
    (base.setI 0xFFE).mem.wf = true ∧ (base.setI 0xFFE).i.toNat + (1 : Reg).val ≤ 0xFFF ∧
    (0xFFE : Word).toNat ≤ 0xFFE ∧ (0xFFC : Word).toNat ≤ 0xFFE := by decide

/-- A load of registers and a store, each to its last byte, and a fault. -/
theorem witness_Writes :
    (∃ t, exec (.ldVxMemI 0xE) (base.setI 0xFF1) = .next t) ∧ (∃ t, exec (.ldBVx 0) (base.setI 0xFFD) = .next t) ∧
    (∃ t, exec .ret base = .next t) := ⟨⟨_, rfl⟩, ⟨_, rfl⟩, ⟨_, rfl⟩⟩

/-- Another queue that brings the same keys, and for RND the same byte. -/
theorem witness_InputsSampled :
    (withDriver (base 0x0020 1) [.cpuCycle 0x0020 2, .timerTick] 9).keys = (base 0x0020 1).keys ∧
    (withDriver (base 1 0xA7) [.cpuCycle 2 0xA7] 9).rnd = (base 1 0xA7).rnd := by decide

/-- T2: JP to itself at 0x200; and at the last address a word can stand at. -/
theorem witness_EndedRun :
    (withBytes base 0x200 [0x12, 0x00]).endedNormally 0x200 = true ∧ isCycle (withBytes base 0x200 [0x12, 0x00]) ∧
    (withBytes (base.setPc 0xFFE) 0xFFE [0x1F, 0xFE]).endedNormally 0xFFE = true :=
  ⟨by decide, ⟨0, 0, rfl⟩, by decide⟩

/-- The invariant holds at reset, a step is taken from there. -/
theorem witness_Inv : State.Inv base ∧ ∃ t, step base = .next t := by
  obtain ⟨t, ht, _⟩ := of_afterStep test_unrecognized
  exact ⟨⟨rfl, show (0x200#16).toNat ≤ 0x10FE by decide, fun j h => absurd h (Nat.not_lt_zero j.val), trivial⟩, t, ht⟩

end Sys2Proof.Tests
end

section
/-! The decoder and the opcode map: a word that a row admits decodes (spec 30 R74, R75). -/

namespace Sys2Proof

/-- The mask 0xF000 keeps the group. -/
theorem opGroup_eq_of_mask_F000 {op p : Word} (h : op &&& 0xF000#16 = p) : opGroup op = opGroup p := by
  rw [← h, ← formatNnn_fields op, mask_formatNnn]
  simp

/-- The mask 0xF00F keeps the group and the last nibble. -/
theorem fields_eq_of_mask_F00F {op p : Word} (h : op &&& 0xF00F#16 = p) : opGroup op = opGroup p ∧ opN op = opN p := by
  rw [← h, ← formatXyn_fields op, mask_formatXy]
  simp

/-- The mask 0xF0FF keeps the group and the low byte. -/
theorem fields_eq_of_mask_F0FF {op p : Word} (h : op &&& 0xF0FF#16 = p) :
    opGroup op = opGroup p ∧ opKk op = opKk p := by
  rw [← h, ← formatXkk_fields op, mask_formatX]
  simp

/-- The mask 0xFFFF keeps the whole word. -/
theorem eq_of_mask_FFFF {op p : Word} (h : op &&& 0xFFFF#16 = p) : op = p :=
  BitVec.and_allOnes.symm.trans h

/-- A word that the row of some instruction admits decodes: what the row's mask keeps is all the decoder looks at. -/
theorem decodeWord_of_admits (i : Instr) {op : Word} (h : i.row.admits op = true) : ∃ j, decodeWord op = .ok j := by
  have hm : op &&& i.row.mask = i.row.pattern := beq_iff_eq.1 h
  cases i with
  | cls | ret =>
    rw [eq_of_mask_FFFF hm]
    exact ⟨_, rfl⟩
  | jpNnn | callNnn | seVxKk | sneVxKk | ldVxKk | addVxKk | ldINnn | jpV0Nnn | rndVxKk | drwVxVyN =>
    simp only [decodeWord, opGroup_eq_of_mask_F000 hm]
    simp [Instr.row, opGroup]
  | seVxVy | sneVxVy | ldVxVy | orVxVy | andVxVy | xorVxVy | addVxVy | subVxVy | shrVx | subnVxVy | shlVx =>
    obtain ⟨hg, hn⟩ := fields_eq_of_mask_F00F hm
    simp only [decodeWord, decodeGroup8, hg, hn]
    simp [Instr.row, opGroup, opN]
  | skpVx | sknpVx | ldVxDt | ldVxK | ldDtVx | ldStVx | addIVx | ldFVx | ldBVx | ldMemIVx | ldVxMemI =>
    obtain ⟨hg, hk⟩ := fields_eq_of_mask_F0FF hm
    simp only [decodeWord, decodeGroupF, hg, hk]
    simp [Instr.row, opGroup, opKk]

/-- What the decoder rejects, no row of the opcode map admits. -/
theorem recognized_eq_false_of_decodeWord_error {op : Word} {e : DecodeError} (h : decodeWord op = .error e) :
    recognized op = false := by
  by_contra hr
  obtain ⟨i, -, hi⟩ : ∃ i ∈ Instr.samples, i.row.admits op = true := by
    simpa [recognized, opcodeMap] using hr
  obtain ⟨j, hj⟩ := decodeWord_of_admits i hi
  rw [h] at hj
  cases hj

end Sys2Proof
end

section
/-! What `exec` answers for the instructions that branch: the fault of 60 R201, or the effect. The others answer one
state, which `exec` computes to. -/

namespace Sys2Proof.Machine

theorem exec_ret_cases (s : State) :
    (s.pop = none ∧ exec .ret s = .next (s.raiseInstr .ret .stackUnderflow none)) ∨
      ∃ a s', s.pop = some (a, s') ∧ exec .ret s = .next (s'.setPc a) := by
  simp only [exec, execRet]
  cases h : s.pop with
  | none => exact Or.inl ⟨rfl, rfl⟩
  | some p => exact Or.inr ⟨p.1, p.2, rfl, rfl⟩

theorem exec_callNnn_cases (nnn : Addr) (s : State) :
    (s.push s.pc = none ∧ exec (.callNnn nnn) s = .next (s.raiseInstr (.callNnn nnn) .stackOverflow none)) ∨
      ∃ s', s.push s.pc = some s' ∧ exec (.callNnn nnn) s = .next (s'.setPc (immAddr nnn)) := by
  simp only [exec, execCallNnn]
  cases h : s.push s.pc with
  | none => exact Or.inl ⟨rfl, rfl⟩
  | some s' => exact Or.inr ⟨s', rfl, rfl⟩

theorem exec_skpVx_cases (x : Reg) (s : State) :
    (0xF < (s.getV x).toNat ∧
        exec (.skpVx x) s = .next (s.raiseInstr (.skpVx x) .keyIndexOutOfRange (some (s.getV x).toNat))) ∨
      ((s.getV x).toNat ≤ 0xF ∧ exec (.skpVx x) s = .next (s.skipIf (s.keyDown (s.getV x).toNat))) := by
  simp only [exec, execSkpVx, State.keyIndex]
  by_cases h : (s.getV x).toNat ≤ 0xF
  · exact Or.inr ⟨h, by simp [h]⟩
  · exact Or.inl ⟨by omega, by simp [h]⟩

theorem exec_sknpVx_cases (x : Reg) (s : State) :
    (0xF < (s.getV x).toNat ∧
        exec (.sknpVx x) s = .next (s.raiseInstr (.sknpVx x) .keyIndexOutOfRange (some (s.getV x).toNat))) ∨
      ((s.getV x).toNat ≤ 0xF ∧ exec (.sknpVx x) s = .next (s.skipIf (!s.keyDown (s.getV x).toNat))) := by
  simp only [exec, execSknpVx, State.keyIndex]
  by_cases h : (s.getV x).toNat ≤ 0xF
  · exact Or.inr ⟨h, by simp [h]⟩
  · exact Or.inl ⟨by omega, by simp [h]⟩

theorem exec_drwVxVyN_cases (x y : Reg) (n : Nibble) (s : State) :
    (s.readBlock s.indexBase (rowCount n) = none ∧
        exec (.drwVxVyN x y n) s = .next (s.raiseIndexRange (.drwVxVyN x y n))) ∨
      ∃ rows, s.readBlock s.indexBase (rowCount n) = some rows ∧
        exec (.drwVxVyN x y n) s = .next (s.setCanvas (drawSprite s.fb (s.getV x) (s.getV y) rows)) := by
  simp only [exec, execDrwVxVyN]
  cases h : s.readBlock s.indexBase (rowCount n) with
  | none => exact Or.inl ⟨rfl, rfl⟩
  | some rows => exact Or.inr ⟨rows, rfl, rfl⟩

theorem exec_ldBVx_cases (x : Reg) (s : State) :
    (s.writeBlock s.indexBase (bcdDigits (s.getV x)) = none ∧
        exec (.ldBVx x) s = .next (s.raiseIndexRange (.ldBVx x))) ∨
      ∃ s', s.writeBlock s.indexBase (bcdDigits (s.getV x)) = some s' ∧ exec (.ldBVx x) s = .next s' := by
  simp only [exec, execLdBVx]
  cases h : s.writeBlock s.indexBase (bcdDigits (s.getV x)) with
  | none => exact Or.inl ⟨rfl, rfl⟩
  | some s' => exact Or.inr ⟨s', rfl, rfl⟩

theorem exec_ldMemIVx_cases (x : Reg) (s : State) :
    (s.writeBlock s.indexBase (s.regsTo x) = none ∧
        exec (.ldMemIVx x) s = .next (s.raiseIndexRange (.ldMemIVx x))) ∨
      ∃ s', s.writeBlock s.indexBase (s.regsTo x) = some s' ∧ exec (.ldMemIVx x) s = .next s' := by
  simp only [exec, execLdMemIVx]
  cases h : s.writeBlock s.indexBase (s.regsTo x) with
  | none => exact Or.inl ⟨rfl, rfl⟩
  | some s' => exact Or.inr ⟨s', rfl, rfl⟩

theorem exec_ldVxMemI_cases (x : Reg) (s : State) :
    (s.readBlock s.indexBase (x.val + 1) = none ∧
        exec (.ldVxMemI x) s = .next (s.raiseIndexRange (.ldVxMemI x))) ∨
      ∃ bytes, s.readBlock s.indexBase (x.val + 1) = some bytes ∧
        exec (.ldVxMemI x) s = .next (s.setRegs (fillRegs s.v 0 bytes)) := by
  simp only [exec, execLdVxMemI]
  cases h : s.readBlock s.indexBase (x.val + 1) with
  | none => exact Or.inl ⟨rfl, rfl⟩
  | some bytes => exact Or.inr ⟨bytes, rfl, rfl⟩

end Sys2Proof.Machine
end

section
/-! The invariant of the machine (10 R25, R26, R31; 60 R201): each operation keeps it, then each instruction, each
trigger, each step. -/

namespace Sys2Proof.Machine

/-! ### The operations -/

/-- The invariant speaks of memory, pc, the stack and the run state alone. -/
theorem State.Inv.of_same {s t : State} (h : s.Inv) (hmem : t.mem = s.mem) (hpc : t.pc = s.pc)
    (hstack : t.stack = s.stack) (hsp : t.sp = s.sp) (hrun : t.run = s.run) : t.Inv where
  memory := hmem ▸ h.memory
  pcRange := by unfold State.pcInRange; exact hpc ▸ h.pcRange
  stackRange := by unfold State.stackInRange; exact hstack ▸ hsp ▸ h.stackRange
  record := by unfold State.recordWellFormed; exact hrun ▸ h.record

theorem State.Inv.setMem {s : State} (h : s.Inv) {m : Memory} (hm : m.wf = true) : (s.setMem m).Inv :=
  ⟨hm, h.pcRange, h.stackRange, h.record⟩

theorem State.Inv.setPc {s : State} (h : s.Inv) {w : Word} (hw : w.toNat ≤ 0x10FE) : (s.setPc w).Inv :=
  ⟨h.memory, hw, h.stackRange, h.record⟩

theorem State.Inv.setRun_running {s : State} (h : s.Inv) : (s.setRun .running).Inv :=
  ⟨h.memory, h.pcRange, h.stackRange, trivial⟩

theorem State.Inv.setRun_awaitingKey {s : State} (h : s.Inv) (r : Reg) : (s.setRun (.awaitingKey r)).Inv :=
  ⟨h.memory, h.pcRange, h.stackRange, trivial⟩

theorem State.Inv.raise {s : State} (h : s.Inv) {c : Fault} {a o : Option Word} {n : Option Nat}
    (hr : FaultRecord.wellFormed ⟨c, a, o, n⟩) : (s.raise c a o n).Inv :=
  ⟨h.memory, h.pcRange, h.stackRange, hr⟩

theorem State.Inv.setV {s : State} (h : s.Inv) (x : Reg) (b : Byte) : (s.setV x b).Inv :=
  h.of_same rfl rfl rfl rfl rfl

theorem State.Inv.setPhase {s : State} (h : s.Inv) (p : Phase) : (s.setPhase p).Inv :=
  h.of_same rfl rfl rfl rfl rfl

theorem State.Inv.consume {s : State} (h : s.Inv) : s.consume.Inv :=
  h.of_same rfl rfl rfl rfl rfl

theorem State.Inv.timerTick {s : State} (h : s.Inv) : s.timerTick.Inv :=
  h.of_same rfl rfl rfl rfl rfl

theorem State.Inv.writeBlock {s t : State} (h : s.Inv) {base : Nat} {bytes : List Byte}
    (ht : s.writeBlock base bytes = some t) : t.Inv := by
  have hm := State.writeBlock_wf ht h.memory
  obtain ⟨-, rfl⟩ := State.writeBlock_some ht
  exact h.setMem hm

/-- A pushed address joins the live slots, so it must be in their range. -/
theorem State.Inv.push {s t : State} (h : s.Inv) {v : Word} (hv : v.toNat ≤ 0x1000) (ht : s.push v = some t) :
    t.Inv := by
  obtain ⟨hs, rfl⟩ := State.push_some ht
  refine ⟨h.memory, h.pcRange, fun j hj => ?_, h.record⟩
  rw [Vector.get_eq_getElem, Vector.getElem_set]
  split
  · exact hv
  · have hj' : j.val < s.sp.val := by
      have : j.val < s.sp.val + 1 := hj
      omega
    exact h.stackRange j hj'

/-- A popped address was a live slot, so it is in their range. -/
theorem State.Inv.pop {s t : State} (h : s.Inv) {v : Word} (ht : s.pop = some (v, t)) : v.toNat ≤ 0x1000 ∧ t.Inv := by
  obtain ⟨hs, rfl, rfl⟩ := State.pop_some ht
  refine ⟨h.stackRange ⟨s.sp.val - 1, by omega⟩ (by simp; omega), h.memory, h.pcRange, fun j hj => ?_, h.record⟩
  have : j.val < s.sp.val - 1 := hj
  exact h.stackRange j (by omega)

theorem State.Inv.poll {s : State} (h : s.Inv) (r : Reg) : (s.poll r).Inv := by
  obtain ⟨k, -, hp⟩ | ⟨-, hp⟩ := s.poll_cases r
  · rw [hp]
    exact (h.setV r _).setRun_running
  · rw [hp]
    exact h

/-! ### An instruction -/

/-- A state in which `exec` runs: the invariant holds, and pc - 2 is an address a word was fetched from (40 R100). -/
structure State.Fetched (s : State) : Prop where
  inv : s.Inv
  address : (s.pc - 2).toNat ≤ 0xFFE

theorem State.Fetched.pc_le {s : State} (h : s.Fetched) : s.pc.toNat ≤ 0x1000 := by
  have := h.address
  bv_omega

theorem State.Fetched.skipIf {s : State} (h : s.Fetched) (c : Bool) : (s.skipIf c).Inv := by
  refine h.inv.setPc ?_
  have := h.pc_le
  split <;> bv_omega

theorem State.Fetched.raiseIndexRange {s : State} (h : s.Fetched) {i : Instr} (hi : accessesIndex i = true) :
    (s.raiseIndexRange i).Inv :=
  h.inv.raise ⟨_, _, rfl, rfl, Nat.le_max_right _ _, Or.inr ⟨h.address, i, hi, rfl⟩⟩

/-- An immediate address is at most 0xFFF. -/
theorem immAddr_le (nnn : Addr) : (immAddr nnn).toNat ≤ 0xFFF := by
  unfold immAddr
  bv_omega

/-- The farthest jump: 0xFFF and 0xFF more (10 R25). -/
theorem immAddr_add_zext16_le (nnn : Addr) (b : Byte) : (immAddr nnn + zext16 b).toNat ≤ 0x10FE := by
  unfold immAddr zext16
  bv_omega

/-- Every instruction keeps the invariant. -/
theorem State.Fetched.exec_inv {i : Instr} {s t : State} (hs : s.Fetched) (h : exec i s = .next t) : t.Inv := by
  cases i with
  | cls | ldVxKk | addVxKk | ldVxVy | orVxVy | andVxVy | xorVxVy | addVxVy | subVxVy | shrVx | subnVxVy | shlVx | ldINnn
  | rndVxKk | ldVxDt | ldDtVx | ldStVx | addIVx | ldFVx =>
    obtain rfl := Host.Outcome.next.inj h
    exact hs.inv.of_same rfl rfl rfl rfl rfl
  | seVxKk | sneVxKk | seVxVy | sneVxVy =>
    obtain rfl := Host.Outcome.next.inj h
    exact hs.skipIf _
  | jpNnn nnn =>
    obtain rfl := Host.Outcome.next.inj h
    exact hs.inv.setPc ((immAddr_le nnn).trans (by decide))
  | jpV0Nnn nnn =>
    obtain rfl := Host.Outcome.next.inj h
    exact hs.inv.setPc (immAddr_add_zext16_le nnn _)
  | ldVxK x =>
    obtain rfl := Host.Outcome.next.inj h
    exact hs.inv.setRun_awaitingKey x
  | ret =>
    obtain ⟨-, he⟩ | ⟨a, s', hp, he⟩ := exec_ret_cases s <;> obtain rfl := Host.Outcome.next.inj (he.symm.trans h)
    · exact hs.inv.raise ⟨_, rfl, hs.address, rfl, rfl⟩
    · obtain ⟨ha, hs'⟩ := hs.inv.pop hp
      exact hs'.setPc (ha.trans (by decide))
  | callNnn nnn =>
    obtain ⟨-, he⟩ | ⟨s', hp, he⟩ := exec_callNnn_cases nnn s <;> obtain rfl := Host.Outcome.next.inj (he.symm.trans h)
    · exact hs.inv.raise ⟨_, nnn, rfl, hs.address, rfl, rfl⟩
    · exact (hs.inv.push hs.pc_le hp).setPc ((immAddr_le nnn).trans (by decide))
  | skpVx x =>
    obtain ⟨hk, he⟩ | ⟨-, he⟩ := exec_skpVx_cases x s <;> obtain rfl := Host.Outcome.next.inj (he.symm.trans h)
    · exact hs.inv.raise ⟨_, x, _, rfl, hs.address, Or.inl rfl, rfl, hk, Nat.le_of_lt_succ (s.getV x).isLt⟩
    · exact hs.skipIf _
  | sknpVx x =>
    obtain ⟨hk, he⟩ | ⟨-, he⟩ := exec_sknpVx_cases x s <;> obtain rfl := Host.Outcome.next.inj (he.symm.trans h)
    · exact hs.inv.raise ⟨_, x, _, rfl, hs.address, Or.inr rfl, rfl, hk, Nat.le_of_lt_succ (s.getV x).isLt⟩
    · exact hs.skipIf _
  | drwVxVyN x y n =>
    obtain ⟨-, he⟩ | ⟨rows, -, he⟩ := exec_drwVxVyN_cases x y n s <;>
      obtain rfl := Host.Outcome.next.inj (he.symm.trans h)
    · exact hs.raiseIndexRange rfl
    · exact hs.inv.of_same rfl rfl rfl rfl rfl
  | ldBVx x =>
    obtain ⟨-, he⟩ | ⟨s', hw, he⟩ := exec_ldBVx_cases x s <;> obtain rfl := Host.Outcome.next.inj (he.symm.trans h)
    · exact hs.raiseIndexRange rfl
    · exact hs.inv.writeBlock hw
  | ldMemIVx x =>
    obtain ⟨-, he⟩ | ⟨s', hw, he⟩ := exec_ldMemIVx_cases x s <;> obtain rfl := Host.Outcome.next.inj (he.symm.trans h)
    · exact hs.raiseIndexRange rfl
    · exact hs.inv.writeBlock hw
  | ldVxMemI x =>
    obtain ⟨-, he⟩ | ⟨bytes, -, he⟩ := exec_ldVxMemI_cases x s <;> obtain rfl := Host.Outcome.next.inj (he.symm.trans h)
    · exact hs.raiseIndexRange rfl
    · exact hs.inv.of_same rfl rfl rfl rfl rfl

/-! ### A cycle, a trigger, a step -/

theorem State.Fetched.runWord_inv {s t : State} (hs : s.Fetched) {op : Word} (h : s.runWord op = .next t) : t.Inv := by
  unfold State.runWord at h
  cases hd : decodeWord op with
  | ok i =>
    rw [hd] at h
    exact hs.exec_inv h
  | error e =>
    rw [hd] at h
    obtain rfl := Host.Outcome.next.inj h
    exact hs.inv.raise ⟨_, op, rfl, hs.address, rfl, recognized_eq_false_of_decodeWord_error hd, rfl⟩

/-- After the fetch of a word that exists, the advanced state is one in which `exec` runs. -/
theorem State.Inv.advance {s : State} (h : s.Inv) (hpc : s.pc.toNat ≤ 0xFFE) : s.advance.Fetched where
  inv := h.setPc (by bv_omega)
  address := by rw [State.advance_pc]; bv_omega

theorem State.Inv.runningCycle {s t : State} (hs : s.Inv) (h : s.runningCycle = .next t) : t.Inv := by
  unfold State.runningCycle at h
  rw [State.fetch_eq] at h
  by_cases hpc : s.pc.toNat ≤ 0xFFE
  · rw [if_pos hpc] at h
    exact (hs.advance hpc).runWord_inv h
  · rw [if_neg hpc] at h
    obtain rfl := Host.Outcome.next.inj h
    exact hs.raise ⟨_, _, rfl, rfl, Nat.le_max_right _ _, Or.inl ⟨by omega, rfl, rfl⟩⟩

theorem State.Inv.cpuCycle {s t : State} (hs : s.Inv) (h : s.cpuCycle = .next t) : t.Inv := by
  cases hr : s.run with
  | running =>
    rw [State.cpuCycle_running hr] at h
    exact (hs.setPhase .started).runningCycle h
  | awaitingKey r =>
    rw [State.cpuCycle_awaitingKey hr] at h
    obtain rfl := Host.Outcome.next.inj h
    exact hs.poll r
  | faulted rec =>
    rw [State.cpuCycle_faulted hr] at h
    obtain rfl := Host.Outcome.next.inj h
    exact hs

theorem State.Inv.loadRom {s t : State} (hs : s.Inv) {bytes : List Byte} (h : s.loadRom bytes = .next t) : t.Inv := by
  obtain ⟨-, he⟩ | ⟨-, -, hlen, he⟩ | ⟨-, -, hlen, he⟩ := s.loadRom_cases bytes <;> rw [he] at h
  · cases h
  · obtain rfl := Host.Outcome.next.inj h
    refine State.Inv.setPhase ?_ .loaded
    exact hs.raise ⟨rfl, rfl, _, rfl, hlen⟩
  · obtain rfl := Host.Outcome.next.inj h
    have hfit : 0x200 + bytes.length ≤ Config.memSize := by unfold Config.memSize; omega
    exact (hs.setMem (Memory.writeList_wf hs.memory hfit)).setPhase .loaded

/-- Settles O55: at reset memory is canonical, pc is 0x200, no stack slot is live and no record is held. -/
theorem invariantHoldsAtReset : Obligations.InvariantHoldsAtReset where
  memory := Memory.reset_wf
  pcRange := by unfold State.pcInRange; decide
  stackRange := fun j hj => absurd hj (Nat.not_lt_zero j.val)
  record := trivial

theorem State.Inv.perform {s t : State} (hs : s.Inv) {trigger : Trigger} (h : s.perform trigger = .next t) : t.Inv := by
  cases trigger with
  | cpuCycle keys rnd => exact hs.cpuCycle h
  | timerTick =>
    obtain rfl := Host.Outcome.next.inj h
    exact hs.timerTick
  | reset =>
    obtain rfl := Host.Outcome.next.inj h
    exact State.Inv.of_same invariantHoldsAtReset rfl rfl rfl rfl rfl
  | loadRom bytes => exact hs.loadRom h

/-- Settles O56: the step of each trigger keeps the invariant, and consuming the trigger touches nothing it speaks
of. -/
theorem invariantIsKeptByEveryStep : Obligations.InvariantIsKeptByEveryStep := by
  intro s t hs h
  obtain ⟨s', hp, rfl⟩ := (step_next_iff s t).1 h
  exact (hs.perform hp).consume

end Sys2Proof.Machine
end

section
/-! The who-touches-what table (10 R41): the frame of each operation, then of each instruction. -/

namespace Sys2Proof.Machine

open Sys2Proof.Spec

/-! ### The frame of each operation -/

theorem changesOnly_setV (s : State) (x : Reg) (b : Byte) : changesOnly [.v] s (s.setV x b) :=
  fun f hf => by cases f <;> simp_all [Field.same, State.readByte]

theorem changesOnly_setRegs (s : State) (v : Vector Byte 16) : changesOnly [.v] s (s.setRegs v) :=
  fun f hf => by cases f <;> simp_all [Field.same, State.readByte]

theorem changesOnly_setResultFlag (s : State) (x : Reg) (b : Byte) (c : Bool) :
    changesOnly [.v] s (s.setResultFlag x b c) :=
  fun f hf => by cases f <;> simp_all [Field.same, State.readByte]

theorem changesOnly_setCanvas (s : State) (c : Canvas) : changesOnly [.v, .fb] s (s.setCanvas c) :=
  fun f hf => by cases f <;> simp_all [Field.same, State.readByte]

theorem changesOnly_setFb (s : State) (fb : Vector (BitVec 64) 32) : changesOnly [.fb] s (s.setFb fb) :=
  fun f hf => by cases f <;> simp_all [Field.same, State.getV, State.readByte]

theorem changesOnly_setI (s : State) (w : Word) : changesOnly [.i] s (s.setI w) :=
  fun f hf => by cases f <;> simp_all [Field.same, State.getV, State.readByte]

theorem changesOnly_setPc (s : State) (w : Word) : changesOnly [.pc] s (s.setPc w) :=
  fun f hf => by cases f <;> simp_all [Field.same, State.getV, State.readByte]

theorem changesOnly_setDt (s : State) (b : Byte) : changesOnly [.dt] s (s.setDt b) :=
  fun f hf => by cases f <;> simp_all [Field.same, State.getV, State.readByte]

theorem changesOnly_setSt (s : State) (b : Byte) : changesOnly [.st] s (s.setSt b) :=
  fun f hf => by cases f <;> simp_all [Field.same, State.getV, State.readByte]

theorem changesOnly_setRun (s : State) (r : Run) : changesOnly [.run] s (s.setRun r) :=
  fun f hf => by cases f <;> simp_all [Field.same, State.getV, State.readByte]

theorem changesOnly_setMem (s : State) (m : Memory) : changesOnly [.mem] s (s.setMem m) :=
  fun f hf => by cases f <;> simp_all [Field.same, State.getV]

theorem changesOnly_push_setPc {s t : State} {v : Word} (h : s.push v = some t) (w : Word) :
    changesOnly [.pc, .stack, .sp] s (t.setPc w) := by
  obtain ⟨_, rfl⟩ := State.push_some h
  exact fun f hf => by cases f <;> simp_all [Field.same, State.getV, State.readByte]

theorem changesOnly_pop_setPc {s t : State} {v : Word} (h : s.pop = some (v, t)) (w : Word) :
    changesOnly [.pc, .stack, .sp] s (t.setPc w) := by
  obtain ⟨_, _, rfl⟩ := State.pop_some h
  exact fun f hf => by cases f <;> simp_all [Field.same, State.getV, State.readByte]

theorem regsOnly_setV (s : State) (x : Reg) (b : Byte) : regsOnly [x] s (s.setV x b) :=
  fun _ hz => State.getV_setV_other s (List.ne_of_not_mem_cons hz) b

theorem regsOnly_setResultFlag (s : State) (x : Reg) (b : Byte) (c : Bool) :
    regsOnly [x, 0xF] s (s.setResultFlag x b c) := fun z hz => by
  obtain ⟨hx, hf⟩ : z ≠ x ∧ z ≠ vf := by simpa [vf] using hz
  rw [State.getV_setResultFlag, if_neg hf, if_neg hx]

theorem regsOnly_setCanvas (s : State) (c : Canvas) : regsOnly [0xF] s (s.setCanvas c) :=
  fun _ hz => State.getV_setV_other (s.setFb c.fb) (List.ne_of_not_mem_cons hz) (flagByte c.hit)

/-- A list of bytes loaded from V0 on leaves the registers after it. -/
theorem getV_setRegs_fillRegs {s : State} {bytes : List Byte} {z : Reg} (hz : bytes.length ≤ z.val) :
    (s.setRegs (fillRegs s.v 0 bytes)).getV z = s.getV z := by
  simp [State.getV, fillRegs_get, List.getElem?_eq_none hz]

/-! ### The frame of each instruction -/

/-- An instruction took no fault, and what it changed is in the entries the table gives it. -/
def withinEntries (i : Instr) (s t : State) : Prop :=
  changesOnly (writes i) s t ∧ regsOnly (writesRegs i) s t ∧ bytesOnly s.i.toNat (writesBytes i) s t

/-- The fields' entries say all of an instruction that writes neither registers nor memory. -/
theorem withinEntries_of_changesOnly {i : Instr} {s t : State} (h : changesOnly (writes i) s t)
    (hv : .v ∉ writes i := by simp [writes]) (hm : .mem ∉ writes i := by simp [writes]) : withinEntries i s t :=
  ⟨h, fun z _ => h .v hv z, fun a _ => h .mem hm a⟩

/-- The entries of an instruction that writes registers and no memory. -/
theorem withinEntries_of_regsOnly {i : Instr} {s t : State} (h : changesOnly (writes i) s t)
    (hr : regsOnly (writesRegs i) s t) (hm : .mem ∉ writes i := by simp [writes]) : withinEntries i s t :=
  ⟨h, hr, fun a _ => h .mem hm a⟩

/-- The entries of an instruction that stores a block from I on. -/
theorem withinEntries_of_writeBlock {i : Instr} {s t : State} {bytes : List Byte} (hi : writes i = [.mem])
    (hn : writesBytes i = bytes.length) (h : s.writeBlock s.indexBase bytes = some t) : withinEntries i s t := by
  have hc : changesOnly [.mem] s t := by
    obtain ⟨-, rfl⟩ := State.writeBlock_some h
    exact changesOnly_setMem s _
  refine ⟨hi ▸ hc, fun z _ => hc .v (by simp) z, fun a ha => ?_⟩
  exact State.readByte_writeBlock_outside h (hn ▸ ha)

/-- A fault was taken, and only the run state changed (60 R210). -/
def faultOnly (s t : State) : Prop := (∃ rec, t.run = .faulted rec) ∧ changesOnly [.run] s t

theorem faultOnly_raise (s : State) (c : Fault) (a o : Option Word) (n : Option Nat) : faultOnly s (s.raise c a o n) :=
  ⟨⟨_, rfl⟩, changesOnly_setRun s _⟩

/-- Settles O52, instruction by instruction, from the frame of the operation each ends with. -/
theorem instructionsWriteOnlyTheirTableEntries : Obligations.InstructionsWriteOnlyTheirTableEntries := by
  intro i s t h
  change withinEntries i s t ∨ faultOnly s t
  cases i with
  | ldVxKk | addVxKk | ldVxVy | orVxVy | andVxVy | xorVxVy | rndVxKk | ldVxDt =>
    obtain rfl := Host.Outcome.next.inj h
    exact Or.inl (withinEntries_of_regsOnly (changesOnly_setV s _ _) (regsOnly_setV s _ _))
  | addVxVy | subVxVy | shrVx | subnVxVy | shlVx =>
    obtain rfl := Host.Outcome.next.inj h
    exact Or.inl (withinEntries_of_regsOnly (changesOnly_setResultFlag s _ _ _) (regsOnly_setResultFlag s _ _ _))
  | jpNnn | seVxKk | sneVxKk | seVxVy | sneVxVy | jpV0Nnn =>
    obtain rfl := Host.Outcome.next.inj h
    exact Or.inl (withinEntries_of_changesOnly (changesOnly_setPc s _))
  | ldINnn | addIVx | ldFVx =>
    obtain rfl := Host.Outcome.next.inj h
    exact Or.inl (withinEntries_of_changesOnly (changesOnly_setI s _))
  | cls =>
    obtain rfl := Host.Outcome.next.inj h
    exact Or.inl (withinEntries_of_changesOnly (changesOnly_setFb s _))
  | ldVxK =>
    obtain rfl := Host.Outcome.next.inj h
    exact Or.inl (withinEntries_of_changesOnly (changesOnly_setRun s _))
  | ldDtVx =>
    obtain rfl := Host.Outcome.next.inj h
    exact Or.inl (withinEntries_of_changesOnly (changesOnly_setDt s _))
  | ldStVx =>
    obtain rfl := Host.Outcome.next.inj h
    exact Or.inl (withinEntries_of_changesOnly (changesOnly_setSt s _))
  | ret =>
    obtain ⟨-, he⟩ | ⟨a, s', hp, he⟩ := exec_ret_cases s <;> obtain rfl := Host.Outcome.next.inj (he.symm.trans h)
    · exact Or.inr (faultOnly_raise ..)
    · exact Or.inl (withinEntries_of_changesOnly (changesOnly_pop_setPc hp a))
  | callNnn nnn =>
    obtain ⟨-, he⟩ | ⟨s', hp, he⟩ := exec_callNnn_cases nnn s <;> obtain rfl := Host.Outcome.next.inj (he.symm.trans h)
    · exact Or.inr (faultOnly_raise ..)
    · exact Or.inl (withinEntries_of_changesOnly (changesOnly_push_setPc hp _))
  | skpVx x =>
    obtain ⟨-, he⟩ | ⟨-, he⟩ := exec_skpVx_cases x s <;> obtain rfl := Host.Outcome.next.inj (he.symm.trans h)
    · exact Or.inr (faultOnly_raise ..)
    · exact Or.inl (withinEntries_of_changesOnly (changesOnly_setPc s _))
  | sknpVx x =>
    obtain ⟨-, he⟩ | ⟨-, he⟩ := exec_sknpVx_cases x s <;> obtain rfl := Host.Outcome.next.inj (he.symm.trans h)
    · exact Or.inr (faultOnly_raise ..)
    · exact Or.inl (withinEntries_of_changesOnly (changesOnly_setPc s _))
  | drwVxVyN x y n =>
    obtain ⟨-, he⟩ | ⟨rows, -, he⟩ := exec_drwVxVyN_cases x y n s <;>
      obtain rfl := Host.Outcome.next.inj (he.symm.trans h)
    · exact Or.inr (faultOnly_raise ..)
    · exact Or.inl (withinEntries_of_regsOnly (changesOnly_setCanvas s _) (regsOnly_setCanvas s _))
  | ldBVx x =>
    obtain ⟨-, he⟩ | ⟨s', hw, he⟩ := exec_ldBVx_cases x s <;> obtain rfl := Host.Outcome.next.inj (he.symm.trans h)
    · exact Or.inr (faultOnly_raise ..)
    · exact Or.inl (withinEntries_of_writeBlock rfl rfl hw)
  | ldMemIVx x =>
    obtain ⟨-, he⟩ | ⟨s', hw, he⟩ := exec_ldMemIVx_cases x s <;> obtain rfl := Host.Outcome.next.inj (he.symm.trans h)
    · exact Or.inr (faultOnly_raise ..)
    · exact Or.inl (withinEntries_of_writeBlock rfl (s.regsTo_length x).symm hw)
  | ldVxMemI x =>
    obtain ⟨-, he⟩ | ⟨bytes, hb, he⟩ := exec_ldVxMemI_cases x s <;>
      obtain rfl := Host.Outcome.next.inj (he.symm.trans h)
    · exact Or.inr (faultOnly_raise ..)
    · refine Or.inl (withinEntries_of_regsOnly (changesOnly_setRegs s _) (fun z hz => getV_setRegs_fillRegs ?_))
      obtain ⟨-, rfl⟩ := State.readBlock_some hb
      have hxz : x.val < z.val := by simpa [writesRegs] using hz
      simpa using hxz

end Sys2Proof.Machine
end

section
/-! The inputs of a cycle (10 R34, R35): the machine's operations do not look at the driver's queue and counter, but for
the two that sample the keys and the random byte. -/

namespace Sys2Proof.Machine

open Sys2Proof.Spec

variable (s : State) (pending : List Trigger) (steps : Nat)

@[simp] theorem pc_withDriver : (withDriver s pending steps).pc = s.pc := rfl
@[simp] theorem getV_withDriver (x : Reg) : (withDriver s pending steps).getV x = s.getV x := rfl
@[simp] theorem regsTo_withDriver (x : Reg) : (withDriver s pending steps).regsTo x = s.regsTo x := rfl
@[simp] theorem keyIndex_withDriver (x : Reg) : (withDriver s pending steps).keyIndex x = s.keyIndex x := rfl
@[simp] theorem indexBase_withDriver : (withDriver s pending steps).indexBase = s.indexBase := rfl
@[simp] theorem readBlock_withDriver (base n : Nat) :
    (withDriver s pending steps).readBlock base n = s.readBlock base n := rfl

@[simp] theorem push_withDriver (v : Word) :
    (withDriver s pending steps).push v = (s.push v).map (withDriver · pending steps) := by
  by_cases h : s.sp.val < 16 <;> simp [State.push, withDriver, h]

@[simp] theorem pop_withDriver :
    (withDriver s pending steps).pop = s.pop.map fun p => (p.1, withDriver p.2 pending steps) := by
  by_cases h : 0 < s.sp.val <;> simp [State.pop, withDriver, h]

@[simp] theorem writeBlock_withDriver (base : Nat) (bytes : List Byte) :
    (withDriver s pending steps).writeBlock base bytes = (s.writeBlock base bytes).map (withDriver · pending steps) := by
  by_cases h : validRange base bytes.length = true <;> simp [State.writeBlock, withDriver, State.setMem, h]

/-- Settles O53: every operation but the sampling of an input gives the same under another queue and counter, and the
instructions that sample one are given the same input. -/
theorem inputsAreSampledOnlyWhereUsed : Obligations.InputsAreSampledOnlyWhereUsed := by
  intro i s pending steps hkeys hrnd
  cases i with
  | cls | jpNnn | seVxKk | sneVxKk | seVxVy | ldVxKk | addVxKk | ldVxVy | orVxVy | andVxVy | xorVxVy | addVxVy | subVxVy
  | shrVx | subnVxVy | shlVx | sneVxVy | ldINnn | jpV0Nnn | ldVxDt | ldVxK | ldDtVx | ldStVx | addIVx | ldFVx =>
    exact ⟨_, rfl, rfl⟩
  | rndVxKk x kk =>
    refine ⟨_, rfl, ?_⟩
    simp only [exec, execRndVxKk, hrnd rfl]
    rfl
  | skpVx x =>
    simp only [exec, execSkpVx, keyIndex_withDriver, State.keyDown, hkeys rfl]
    cases s.keyIndex x <;> exact ⟨_, rfl, rfl⟩
  | sknpVx x =>
    simp only [exec, execSknpVx, keyIndex_withDriver, State.keyDown, hkeys rfl]
    cases s.keyIndex x <;> exact ⟨_, rfl, rfl⟩
  | ret =>
    simp only [exec, execRet, pop_withDriver]
    cases s.pop <;> exact ⟨_, rfl, rfl⟩
  | callNnn nnn =>
    simp only [exec, execCallNnn, pc_withDriver, push_withDriver]
    cases s.push s.pc <;> exact ⟨_, rfl, rfl⟩
  | drwVxVyN x y n =>
    simp only [exec, execDrwVxVyN, indexBase_withDriver, readBlock_withDriver]
    cases s.readBlock s.indexBase (rowCount n) <;> exact ⟨_, rfl, rfl⟩
  | ldBVx x =>
    simp only [exec, execLdBVx, indexBase_withDriver, getV_withDriver, writeBlock_withDriver]
    cases s.writeBlock s.indexBase (bcdDigits (s.getV x)) <;> exact ⟨_, rfl, rfl⟩
  | ldMemIVx x =>
    simp only [exec, execLdMemIVx, indexBase_withDriver, regsTo_withDriver, writeBlock_withDriver]
    cases s.writeBlock s.indexBase (s.regsTo x) <;> exact ⟨_, rfl, rfl⟩
  | ldVxMemI x =>
    simp only [exec, execLdVxMemI, indexBase_withDriver, readBlock_withDriver]
    cases s.readBlock s.indexBase (x.val + 1) <;> exact ⟨_, rfl, rfl⟩

end Sys2Proof.Machine
end

section
/-! The state after reset (10 R39). -/

namespace Sys2Proof.Machine

/-- The font stands at address 0, so the reset contents are the font table and zeros. -/
theorem Memory.default_eq (a : Nat) : Memory.default a = fontTable.getD a 0 := by
  simp [Memory.default, fontBase]

theorem fontTable_length : fontTable.length = 80 := rfl

theorem readByte_reset (a : Nat) : State.reset.readByte a = fontTable.getD a 0 :=
  Memory.default_eq a

/-- Settles O8: memory lists no cell, so it reads as the reset contents; every other field is a constant. -/
theorem resetState : Obligations.ResetState := by
  refine ⟨fun a _ => readByte_reset a, fun a ha _ => ?_, fun z => ?_, rfl, rfl, rfl, fun m => ?_, rfl, rfl,
    fun cx cy => ?_, rfl⟩
  · rw [readByte_reset, List.getD_eq_default _ _ (fontTable_length ▸ ha)]
  · simp [State.getV, State.reset, Vector.get_eq_getElem]
  · simp [State.reset, Vector.get_eq_getElem]
  · simp [pixel, State.reset, Vector.get_eq_getElem]

end Sys2Proof.Machine
end

section
/-! The outputs (10 R37; 60 R201). -/

namespace Sys2Proof.Machine

/-- Rows put one above the other in one number, 64 bits each (10 R37; 92 D26). -/
def stackRows (rows : List (BitVec 64)) : Nat := rows.foldr (fun row above => row.toNat + 2 ^ 64 * above) 0

theorem fbOut_eq (s : State) : s.fbOut = BitVec.ofNat 2048 (stackRows s.fb.toList) := rfl

/-- Bit `64 y + x` of the stacked rows is bit `x` of row `y`. -/
theorem testBit_stackRows (rows : List (BitVec 64)) {x y : Nat} (hx : x < 64) (hy : y < rows.length) :
    (stackRows rows).testBit (64 * y + x) = rows[y].getLsbD x := by
  induction rows generalizing y with
  | nil => exact absurd hy (Nat.not_lt_zero y)
  | cons row rows ih =>
    change (row.toNat + 2 ^ 64 * stackRows rows).testBit _ = _
    rw [Nat.add_comm, Nat.testBit_two_pow_mul_add _ row.isLt]
    cases y with
    | zero => simp [hx, BitVec.getLsbD]
    | succ y =>
      rw [if_neg (by omega), show 64 * (y + 1) + x - 64 = 64 * y + x by omega]
      exact ih (Nat.lt_of_succ_lt_succ hy)

theorem getLsbD_fbOut (s : State) (cx : Fin 64) (cy : Fin 32) :
    s.fbOut.getLsbD (64 * cy.val + cx.val) = pixel s.fb cx cy := by
  have hin : 64 * cy.val + cx.val < 2048 := by omega
  rw [fbOut_eq, BitVec.getLsbD_ofNat, testBit_stackRows _ cx.isLt (by simp)]
  simp [hin, pixel, Vector.get_eq_getElem]

theorem soundOn_iff (s : State) : s.soundOn = true ↔ 0 < s.st.toNat := decide_eq_true_iff

theorem waiting_iff (s : State) : s.waiting = true ↔ ∃ r, s.run = .awaitingKey r := by
  unfold State.waiting
  cases s.run <;> simp

theorem faultRecord_eq_some {s : State} {rec : FaultRecord} (h : s.run = .faulted rec) : s.faultRecord = some rec := by
  rw [State.faultRecord, h]

theorem faultRecord_eq_none {s : State} (h : ∀ rec, s.run ≠ .faulted rec) : s.faultRecord = none := by
  unfold State.faultRecord
  cases hr : s.run with
  | faulted rec => exact absurd hr (h rec)
  | running => rfl
  | awaitingKey r => rfl

/-- Settles O46: the framebuffer by its rows, the fault outputs by whether there is a record. -/
theorem outputsShowTheState : Obligations.OutputsShowTheState := by
  refine fun s => ⟨getLsbD_fbOut s, soundOn_iff s, waiting_iff s, fun rec hrec => ?_, fun hnone => ?_⟩
  · have hr := faultRecord_eq_some hrec
    have hcause : s.faultCause = faultCode rec.cause := by rw [State.faultCause, hr]
    simp only [State.faultValid, State.faultIaddr, State.faultOpcode, State.faultInfo, hr, hcause]
    refine ⟨rfl, rfl, rfl, rfl, ?_, ?_, ?_, ?_, ?_, ?_⟩ <;> intro hc <;> rw [hc] <;> rfl
  · have hr := faultRecord_eq_none hnone
    simp [State.faultValid, State.faultCause, hr]

end Sys2Proof.Machine
end

section
/-! A store through I and the fetch after it (20 R55, R63; 45 R181, R182): every byte of memory after the store, named
by its address, is what the fetch reads. -/

namespace Sys2Proof.Machine

open Sys2Proof.Spec

theorem State.fetch_setPc (t : State) {a : Word} (ha : a.toNat ≤ 0xFFE) :
    (t.setPc a).fetch = some (wordOfBytes (t.readByte a.toNat) (t.readByte (a.toNat + 1))) :=
  (State.fetch_eq _).trans (if_pos ha)

theorem bcdDigits_length (b : Byte) : (bcdDigits b).length = 3 := rfl

/-- Fx33 with its three addresses valid does its store. -/
theorem exec_ldBVx_of_valid {x : Reg} {s : State} (h : s.i.toNat + 2 ≤ 0xFFF) :
    ∃ t, s.writeBlock s.i.toNat (bcdDigits (s.getV x)) = some t ∧ exec (.ldBVx x) s = .next t := by
  obtain ⟨hnone, -⟩ | hsome := exec_ldBVx_cases x s
  · obtain ⟨-, hout⟩ := (State.writeBlock_none_iff ..).1 hnone
    rw [bcdDigits_length, State.indexBase] at hout
    omega
  · exact hsome

/-- Fx55 with its addresses valid does its store. -/
theorem exec_ldMemIVx_of_valid {x : Reg} {s : State} (h : s.i.toNat + x.val ≤ 0xFFF) :
    ∃ t, s.writeBlock s.i.toNat (s.regsTo x) = some t ∧ exec (.ldMemIVx x) s = .next t := by
  obtain ⟨hnone, -⟩ | hsome := exec_ldMemIVx_cases x s
  · obtain ⟨-, hout⟩ := (State.writeBlock_none_iff ..).1 hnone
    rw [State.regsTo_length, State.indexBase] at hout
    omega
  · exact hsome

theorem State.regsTo_getD (s : State) {x : Reg} {k : Nat} (hk : k ≤ x.val) :
    (s.regsTo x).getD k 0 = s.getV (Fin.ofNat 16 k) := by
  have hlt : k < (s.regsTo x).length := by rw [State.regsTo_length]; omega
  rw [List.getD_eq_getElem _ _ hlt, State.regsTo_getElem]
  exact congrArg s.getV (Fin.ext (Nat.mod_eq_of_lt (by omega)).symm)

/-- The byte at every address after the three digits were stored. -/
theorem readByte_store_bcdDigits {x : Reg} {s t : State} (hm : s.mem.wf = true)
    (hw : s.writeBlock s.i.toNat (bcdDigits (s.getV x)) = some t) (a : Nat) :
    t.readByte a = byteAfterDigits x s a := by
  rw [State.readByte_writeBlock hw hm, bcdDigits_length, byteAfterDigits]
  by_cases hin : s.i.toNat ≤ a ∧ a < s.i.toNat + 3
  · obtain ⟨k, rfl⟩ := Nat.exists_eq_add_of_le hin.1
    obtain rfl | rfl | rfl : k = 0 ∨ k = 1 ∨ k = 2 := by omega
    all_goals simp [bcdDigits]
  · rw [if_neg hin, if_neg (by omega), if_neg (by omega), if_neg (by omega)]

/-- The byte at every address after V0 to Vx were stored. -/
theorem readByte_store_regsTo {x : Reg} {s t : State} (hm : s.mem.wf = true)
    (hw : s.writeBlock s.i.toNat (s.regsTo x) = some t) (a : Nat) : t.readByte a = byteAfterDump x s a := by
  rw [State.readByte_writeBlock hw hm, State.regsTo_length, byteAfterDump]
  by_cases hin : s.i.toNat ≤ a ∧ a ≤ s.i.toNat + x.val
  · rw [if_pos hin, if_pos (by omega), State.regsTo_getD s (by omega)]
  · rw [if_neg hin, if_neg (by omega)]

/-- Settles O51: the fetch reads two bytes of the memory the store left, and each of them is known by its address. -/
theorem storedBytesAreFetched : Obligations.StoredBytesAreFetched := by
  refine fun x s a hm ha => ⟨fun hi => ?_, fun hi => ?_⟩
  · obtain ⟨t, hw, he⟩ := exec_ldBVx_of_valid hi
    refine ⟨t, he, ?_⟩
    rw [State.fetch_setPc t ha, readByte_store_bcdDigits hm hw, readByte_store_bcdDigits hm hw]
  · obtain ⟨t, hw, he⟩ := exec_ldMemIVx_of_valid hi
    refine ⟨t, he, ?_⟩
    rw [State.fetch_setPc t ha, readByte_store_regsTo hm hw, readByte_store_regsTo hm hw]

end Sys2Proof.Machine
end

section
/-! The decoder and the encoder are inverse to each other (spec 30 R70 to R75, R81). -/

namespace Sys2Proof

/-! ### Decode of encode -/

/-- The fields that the decoder looks at are those the format put there. -/
theorem decodeWord_encode (i : Instr) : decodeWord (encode i) = .ok i := by
  cases i with
  | cls | ret => rfl
  | jpNnn | callNnn | ldINnn | jpV0Nnn | seVxKk | sneVxKk | ldVxKk | addVxKk | rndVxKk | skpVx | sknpVx | seVxVy
  | sneVxVy | drwVxVyN => simp [encode, decodeWord]
  | ldVxVy | orVxVy | andVxVy | xorVxVy | addVxVy | subVxVy | shrVx | subnVxVy | shlVx =>
    simp [encode, decodeWord, decodeGroup8]
  | ldVxDt | ldVxK | ldDtVx | ldStVx | addIVx | ldFVx | ldBVx | ldMemIVx | ldVxMemI =>
    simp [encode, decodeWord, decodeGroupF]

theorem decode_encodeBytes_append (i : Instr) (rest : List Byte) :
    decode (encodeBytes i ++ rest) = .ok (i, rest) := by
  simp [encodeBytes, bytesOfWord, decode, decodeWord_encode]

/-- Settles O1: each format's fields read back, and the two bytes of a word give the word back. -/
theorem decodeOfEncodeIsTheInstruction : Obligations.DecodeOfEncodeIsTheInstruction :=
  fun i _ => ⟨decodeWord_encode i, decode_encodeBytes_append i⟩

/-! ### Encode of decode: a word whose fixed fields are known is its format's word -/

theorem formatNnn_of_group {op : Word} {g : Nibble} (hg : (opGroup op).toNat = g.toNat) :
    formatNnn g (opNnn op) = op := by
  rw [← BitVec.eq_of_toNat_eq hg, formatNnn_fields]

theorem formatXkk_of_group {op : Word} {g : Nibble} (hg : (opGroup op).toNat = g.toNat) :
    formatXkk g (regOf (opX op)) (opKk op) = op := by
  rw [← BitVec.eq_of_toNat_eq hg, formatXkk_fields]

theorem formatXyn_of_group {op : Word} {g : Nibble} (hg : (opGroup op).toNat = g.toNat) :
    formatXyn g (regOf (opX op)) (regOf (opY op)) (opN op) = op := by
  rw [← BitVec.eq_of_toNat_eq hg, formatXyn_fields]

/-- Format X: the low byte is the sub-opcode. -/
theorem formatXkk_of_group_kk {op : Word} {g : Nibble} {kk : Byte} (hg : (opGroup op).toNat = g.toNat)
    (hk : (opKk op).toNat = kk.toNat) : formatXkk g (regOf (opX op)) kk = op := by
  rw [← BitVec.eq_of_toNat_eq hk, formatXkk_of_group hg]

/-- Format XY: the last nibble is the sub-opcode. -/
theorem formatXyn_of_group_n {op : Word} {g n : Nibble} (hg : (opGroup op).toNat = g.toNat)
    (hn : (opN op).toNat = n.toNat) : formatXyn g (regOf (opX op)) (regOf (opY op)) n = op := by
  rw [← BitVec.eq_of_toNat_eq hn, formatXyn_of_group hg]

theorem encode_of_decodeGroup8 {op : Word} {i : Instr} (hg : (opGroup op).toNat = 0x8)
    (h : decodeGroup8 op = .ok i) : encode i = op := by
  unfold decodeGroup8 at h
  split at h
  all_goals cases h
  all_goals exact formatXyn_of_group_n hg ‹_›

theorem encode_of_decodeGroupF {op : Word} {i : Instr} (hg : (opGroup op).toNat = 0xF)
    (h : decodeGroupF op = .ok i) : encode i = op := by
  unfold decodeGroupF at h
  split at h
  all_goals cases h
  all_goals exact formatXkk_of_group_kk hg ‹_›

/-- Settles O2, by the op group: group 0 compares the whole word, every other group keeps each field of its format as
an operand or compares it with a sub-opcode. -/
theorem encodeOfDecodeIsTheWord : Obligations.EncodeOfDecodeIsTheWord := by
  intro op i h
  simp only [decodeWord] at h
  split at h
  case h_1 =>
    split at h
    · cases h
      exact (‹op = _›).symm
    · split at h <;> cases h
      exact (‹op = _›).symm
  case h_6 hg | h_10 hg =>
    split at h <;> cases h
    exact formatXyn_of_group_n hg (congrArg BitVec.toNat ‹opN op = _›)
  case h_9 hg => exact encode_of_decodeGroup8 hg h
  case h_15 hg =>
    split at h
    · cases h
      exact formatXkk_of_group_kk hg (congrArg BitVec.toNat ‹opKk op = _›)
    · split at h <;> cases h
      exact formatXkk_of_group_kk hg (congrArg BitVec.toNat ‹opKk op = _›)
  case h_16 hg => exact encode_of_decodeGroupF hg h
  all_goals cases h
  case h_2 hg | h_3 hg | h_11 hg | h_12 hg => exact formatNnn_of_group hg
  case h_4 hg | h_5 hg | h_7 hg | h_8 hg | h_13 hg => exact formatXkk_of_group hg
  case h_14 hg => exact formatXyn_of_group hg

end Sys2Proof
end

section
/-! The fields of a word as numbers (spec 30 R71), the words of the opcode map and the words outside it (R74 to R76). -/

namespace Sys2Proof

open Sys2Proof.Spec

/-! ### Fields -/

theorem toNat_opGroup (op : Word) : (opGroup op).toNat = op.toNat / 4096 := by
  rw [opGroup, BitVec.extractLsb'_toNat]
  omega

theorem toNat_opX (op : Word) : (opX op).toNat = op.toNat / 256 % 16 := by
  rw [opX, BitVec.extractLsb'_toNat]
  omega

theorem toNat_opY (op : Word) : (opY op).toNat = op.toNat / 16 % 16 := by
  rw [opY, BitVec.extractLsb'_toNat]
  omega

theorem toNat_opN (op : Word) : (opN op).toNat = op.toNat % 16 := by
  rw [opN, BitVec.extractLsb'_toNat]
  omega

theorem toNat_opKk (op : Word) : (opKk op).toNat = op.toNat % 256 := by
  rw [opKk, BitVec.extractLsb'_toNat]
  omega

theorem toNat_opNnn (op : Word) : (opNnn op).toNat = op.toNat % 4096 := by
  rw [opNnn, BitVec.extractLsb'_toNat]
  omega

theorem opKk_eq_append (op : Word) : opKk op = opY op ++ opN op :=
  (BitVec.extractLsb'_append_extractLsb'_eq_extractLsb' (start₁ := 0) (len₁ := 4) rfl).symm

theorem opX_append_opY (op : Word) : opX op ++ opY op = op.extractLsb' 4 8 :=
  BitVec.extractLsb'_append_extractLsb'_eq_extractLsb' (start₁ := 4) (len₁ := 4) rfl

theorem opNnn_eq_append (op : Word) : opNnn op = opX op ++ opY op ++ opN op := by
  rw [opX_append_opY]
  exact (BitVec.extractLsb'_append_extractLsb'_eq_extractLsb' (start₁ := 0) (len₁ := 4) rfl).symm

/-- Settles O7: cutting out bits is dividing and taking a remainder, and neighbouring cuts join. -/
theorem fieldsOfAWord : Obligations.FieldsOfAWord := fun op =>
  ⟨toNat_opGroup op, toNat_opX op, toNat_opY op, toNat_opN op, toNat_opKk op, toNat_opNnn op, opKk_eq_append op,
    opNnn_eq_append op⟩

/-! ### The rows of the opcode map -/

/-- A word can match two rows only if, on the bits that both masks keep, the rows ask for the same. -/
theorem admits_and_admits_eq_false {r q : OpcodeRow} (h : r.pattern &&& q.mask ≠ q.pattern &&& r.mask) (op : Word) :
    (r.admits op && q.admits op) = false := by
  by_contra hboth
  rw [Bool.not_eq_false, Bool.and_eq_true] at hboth
  obtain ⟨hr, hq⟩ := hboth
  refine h ?_
  rw [← beq_iff_eq.1 hr, ← beq_iff_eq.1 hq, BitVec.and_assoc, BitVec.and_assoc, BitVec.and_comm q.mask r.mask]

/-- Settles O4: any two of the 34 rows ask for different bits where both masks keep them. -/
theorem opcodeRowsAreDisjoint : Obligations.OpcodeRowsAreDisjoint := by
  have hdiffer : opcodeMap.Pairwise fun r q => r.pattern &&& q.mask ≠ q.pattern &&& r.mask := by decide
  exact ⟨rfl, hdiffer.imp admits_and_admits_eq_false⟩

/-- Settles O5: fifteen fixed words, decoded. -/
theorem wordsOfTheOpcodeMapDecode : Obligations.WordsOfTheOpcodeMapDecode := by
  unfold Obligations.WordsOfTheOpcodeMapDecode
  decide

/-! ### A word decodes exactly when a row admits it -/

/-- The family `EncodingInRow`, for every instruction. -/
theorem encodingInRow : ∀ i : Instr, Laws.EncodingInRow.Statement i
  | .cls => Laws.EncodingInRow.cls
  | .ret => Laws.EncodingInRow.ret
  | .jpNnn nnn => Laws.EncodingInRow.jpNnn nnn
  | .callNnn nnn => Laws.EncodingInRow.callNnn nnn
  | .seVxKk x kk => Laws.EncodingInRow.seVxKk x kk
  | .sneVxKk x kk => Laws.EncodingInRow.sneVxKk x kk
  | .seVxVy x y => Laws.EncodingInRow.seVxVy x y
  | .ldVxKk x kk => Laws.EncodingInRow.ldVxKk x kk
  | .addVxKk x kk => Laws.EncodingInRow.addVxKk x kk
  | .ldVxVy x y => Laws.EncodingInRow.ldVxVy x y
  | .orVxVy x y => Laws.EncodingInRow.orVxVy x y
  | .andVxVy x y => Laws.EncodingInRow.andVxVy x y
  | .xorVxVy x y => Laws.EncodingInRow.xorVxVy x y
  | .addVxVy x y => Laws.EncodingInRow.addVxVy x y
  | .subVxVy x y => Laws.EncodingInRow.subVxVy x y
  | .shrVx x y => Laws.EncodingInRow.shrVx x y
  | .subnVxVy x y => Laws.EncodingInRow.subnVxVy x y
  | .shlVx x y => Laws.EncodingInRow.shlVx x y
  | .sneVxVy x y => Laws.EncodingInRow.sneVxVy x y
  | .ldINnn nnn => Laws.EncodingInRow.ldINnn nnn
  | .jpV0Nnn nnn => Laws.EncodingInRow.jpV0Nnn nnn
  | .rndVxKk x kk => Laws.EncodingInRow.rndVxKk x kk
  | .drwVxVyN x y n => Laws.EncodingInRow.drwVxVyN x y n
  | .skpVx x => Laws.EncodingInRow.skpVx x
  | .sknpVx x => Laws.EncodingInRow.sknpVx x
  | .ldVxDt x => Laws.EncodingInRow.ldVxDt x
  | .ldVxK x => Laws.EncodingInRow.ldVxK x
  | .ldDtVx x => Laws.EncodingInRow.ldDtVx x
  | .ldStVx x => Laws.EncodingInRow.ldStVx x
  | .addIVx x => Laws.EncodingInRow.addIVx x
  | .ldFVx x => Laws.EncodingInRow.ldFVx x
  | .ldBVx x => Laws.EncodingInRow.ldBVx x
  | .ldMemIVx x => Laws.EncodingInRow.ldMemIVx x
  | .ldVxMemI x => Laws.EncodingInRow.ldVxMemI x

theorem row_mem_opcodeMap (i : Instr) : i.row ∈ opcodeMap := by
  cases i <;> simp [opcodeMap, Instr.samples, Instr.row]

/-- What decodes is an encoding, and an encoding lies in its instruction's row. -/
theorem recognized_of_decodeWord_ok {op : Word} {i : Instr} (h : decodeWord op = .ok i) : recognized op = true := by
  refine List.any_eq_true.2 ⟨i.row, row_mem_opcodeMap i, ?_⟩
  rw [← encodeOfDecodeIsTheWord op i h]
  exact encodingInRow i

theorem decodeWord_ok_or_unrecognized (op : Word) :
    (∃ i, decodeWord op = .ok i) ∨ decodeWord op = .error (.unrecognized op) := by
  simp only [decodeWord, decodeGroup8, decodeGroupF]
  repeat' split
  all_goals simp

theorem decodeWord_ok_iff_recognized (op : Word) : (∃ i, decodeWord op = .ok i) ↔ recognized op = true := by
  refine ⟨fun ⟨_, h⟩ => recognized_of_decodeWord_ok h, fun hr => ?_⟩
  obtain h | h := decodeWord_ok_or_unrecognized op
  · exact h
  · rw [recognized_eq_false_of_decodeWord_error h] at hr
    cases hr

theorem decodeWord_unrecognized_iff (op : Word) :
    decodeWord op = .error (.unrecognized op) ↔ recognized op = false := by
  refine ⟨recognized_eq_false_of_decodeWord_error, fun hr => ?_⟩
  obtain ⟨i, h⟩ | h := decodeWord_ok_or_unrecognized op
  · rw [recognized_of_decodeWord_ok h] at hr
    cases hr
  · exact h

/-! ### The words that do not decode are those of 30 R76 -/

theorem ite_ok_eq_error_iff {p : Prop} [Decidable p] {i : Instr} {r : Except DecodeError Instr} {e : DecodeError} :
    (if p then .ok i else r) = .error e ↔ ¬p ∧ r = .error e := by
  by_cases h : p <;> simp [h]

theorem decodeGroup8_unrecognized_iff (op : Word) :
    decodeGroup8 op = .error (.unrecognized op) ↔ (opN op).toNat ∈ [0x8, 0x9, 0xA, 0xB, 0xC, 0xD, 0xF] := by
  have hlt := (opN op).isLt
  unfold decodeGroup8
  split
  case h_10 =>
    simp only [imp_false, List.mem_cons, List.not_mem_nil, or_false, true_iff] at *
    omega
  all_goals simp [*]

theorem decodeGroupF_unrecognized_iff (op : Word) :
    decodeGroupF op = .error (.unrecognized op) ↔
      (opKk op).toNat ∉ [0x07, 0x0A, 0x15, 0x18, 0x1E, 0x29, 0x33, 0x55, 0x65] := by
  unfold decodeGroupF
  split
  case h_10 => simp_all
  all_goals simp [*]

/-- By the op group: the groups that hold a sub-opcode reject what no sub-opcode is, the others reject nothing. -/
theorem decodeWord_unrecognized_iff_listed (op : Word) :
    decodeWord op = .error (.unrecognized op) ↔ listedUnrecognized op := by
  have hlt := (opGroup op).isLt
  simp only [listedUnrecognized, ← toNat_opGroup, ← toNat_opN, ← toNat_opKk, decodeWord]
  split
  case h_1 hg => simp [hg, ite_ok_eq_error_iff]
  case h_6 hg | h_10 hg => simp [hg, BitVec.toNat_eq]
  case h_9 hg => simp [hg, decodeGroup8_unrecognized_iff]
  case h_15 hg => simp [hg, ite_ok_eq_error_iff, BitVec.toNat_eq]
  case h_16 hg => simp [hg, decodeGroupF_unrecognized_iff]
  case h_17 =>
    exfalso
    simp only [imp_false] at *
    omega
  all_goals simp [*]

/-- Settles O3: what decodes lies in a row, what a row admits decodes, and the rest is rejected by name. -/
theorem decoderRejectsExactlyTheListedWords : Obligations.DecoderRejectsExactlyTheListedWords := fun op =>
  ⟨decodeWord_ok_iff_recognized op,
    (decodeWord_unrecognized_iff op).symm.trans (decodeWord_unrecognized_iff_listed op),
    (decodeWord_unrecognized_iff op).2⟩

end Sys2Proof
end

section
/-! The printer and the assembler (spec 30 R79, R81): an instruction printed and assembled again. -/

namespace Sys2Proof.Asm

/-! ### Mnemonics -/

theorem mnemonicOf_spelling (m : Mnemonic) : mnemonicOf m.spelling = some m := by
  cases m <;> decide

/-- No mnemonic is a label. -/
theorem labelOf_spelling (m : Mnemonic) : labelOf m.spelling = none := by
  cases m <;> decide

/-- No mnemonic is the word of a data byte. -/
theorem spelling_ne_DB (m : Mnemonic) : (m.spelling == "DB".toList) = false := by
  cases m <;> decide

/-! ### Operands -/

theorem operandOf_byteText (symbols : Symbols) (b : Byte) : operandOf symbols (byteText b) = some (.num b.toNat) :=
  operandOf_number symbols (numberOf_byteText b)

theorem operandOf_addrText (symbols : Symbols) (a : Addr) : operandOf symbols (addrText a) = some (.num a.toNat) :=
  operandOf_number symbols (numberOf_addrText a)

theorem operandOf_nibbleText (symbols : Symbols) (n : Nibble) :
    operandOf symbols (nibbleText n) = some (.num n.toNat) :=
  operandOf_number symbols (numberOf_nibbleText n)

/-! ### The printed words, read as a mnemonic and operands -/

/-- The mnemonic that the printer writes for an instruction. -/
def mnemonicOfInstr : Instr → Mnemonic
  | .cls => .cls
  | .ret => .ret
  | .jpNnn _ | .jpV0Nnn _ => .jp
  | .callNnn _ => .call
  | .seVxKk .. | .seVxVy .. => .se
  | .sneVxKk .. | .sneVxVy .. => .sne
  | .ldVxKk .. | .ldVxVy .. | .ldINnn _ | .ldVxDt _ | .ldVxK _ | .ldDtVx _ | .ldStVx _ | .ldFVx _ | .ldBVx _
  | .ldMemIVx _ | .ldVxMemI _ => .ld
  | .addVxKk .. | .addVxVy .. | .addIVx _ => .add
  | .orVxVy .. => .or
  | .andVxVy .. => .and
  | .xorVxVy .. => .xor
  | .subVxVy .. => .sub
  | .shrVx .. => .shr
  | .subnVxVy .. => .subn
  | .shlVx .. => .shl
  | .rndVxKk .. => .rnd
  | .drwVxVyN .. => .drw
  | .skpVx _ => .skp
  | .sknpVx _ => .sknp

/-- The operands that the printer writes for an instruction; a shift has one. -/
def operandsOfInstr : Instr → List Operand
  | .cls | .ret => []
  | .jpNnn a | .callNnn a => [.num a.toNat]
  | .jpV0Nnn a => [.reg 0, .num a.toNat]
  | .ldINnn a => [.i, .num a.toNat]
  | .seVxKk x kk | .sneVxKk x kk | .ldVxKk x kk | .addVxKk x kk | .rndVxKk x kk => [.reg x, .num kk.toNat]
  | .seVxVy x y | .sneVxVy x y | .ldVxVy x y | .orVxVy x y | .andVxVy x y | .xorVxVy x y | .addVxVy x y
  | .subVxVy x y | .subnVxVy x y => [.reg x, .reg y]
  | .shrVx x _ | .shlVx x _ | .skpVx x | .sknpVx x => [.reg x]
  | .drwVxVyN x y n => [.reg x, .reg y, .num n.toNat]
  | .ldVxDt x => [.reg x, .dt]
  | .ldVxK x => [.reg x, .k]
  | .ldDtVx x => [.dt, .reg x]
  | .ldStVx x => [.st, .reg x]
  | .addIVx x => [.i, .reg x]
  | .ldFVx x => [.f, .reg x]
  | .ldBVx x => [.b, .reg x]
  | .ldMemIVx x => [.memI, .reg x]
  | .ldVxMemI x => [.reg x, .memI]

theorem instrWords_eq_cons (i : Instr) : instrWords i = (mnemonicOfInstr i).spelling :: (instrWords i).tail := by
  cases i <;> rfl

theorem operandsOf_instrWords_tail (symbols : Symbols) (i : Instr) :
    operandsOf symbols (instrWords i).tail = some (operandsOfInstr i) := by
  have hV0 : operandOf symbols "V0".toList = some (.reg 0) := operandOf_registerText symbols 0
  have hI : operandOf symbols "I".toList = some .i := rfl
  have hDT : operandOf symbols "DT".toList = some .dt := rfl
  have hST : operandOf symbols "ST".toList = some .st := rfl
  have hK : operandOf symbols "K".toList = some .k := rfl
  have hF : operandOf symbols "F".toList = some .f := rfl
  have hB : operandOf symbols "B".toList = some .b := rfl
  have hmemI : operandOf symbols "[I]".toList = some .memI := rfl
  cases i <;>
    simp only [instrWords, operandsOfInstr, List.tail, operandsOf, operandOf_registerText, operandOf_byteText,
      operandOf_addrText, operandOf_nibbleText, hV0, hI, hDT, hST, hK, hF, hB, hmemI]

/-- The shape of the operands selects the instruction's own row, and each number fits its field. -/
theorem instrOf_instr (i : Instr) : instrOf (mnemonicOfInstr i) (operandsOfInstr i) = some (withoutIgnoredY i) := by
  cases i <;> simp [mnemonicOfInstr, operandsOfInstr, instrOf, instrOfLd, withoutIgnoredY]

/-! ### A program of one line -/

theorem assembleWords_of_instrOf {symbols : Symbols} {m : Mnemonic} {ts : List Text} {os : List Operand} {i : Instr}
    (hos : operandsOf symbols ts = some os) (hi : instrOf m os = some i) :
    assembleWords symbols (m.spelling :: ts) = .ok (encodeBytes i) := by
  simp only [assembleWords, spelling_ne_DB, Bool.false_eq_true, if_false, mnemonicOf_spelling, hos, hi]

/-- A line that begins with a mnemonic has no label, so its words assemble as they stand. -/
theorem assemble_line {m : Mnemonic} {ts : List Text} {bytes : List Byte}
    (hw : ∀ t ∈ m.spelling :: ts, whole t = true) (hb : assembleWords [] (m.spelling :: ts) = .ok bytes) :
    assemble ([' '].intercalate (m.spelling :: ts)) = .ok bytes := by
  have hwords := wordsOf_intercalate _ hw
  have hne : ([' '].intercalate (m.spelling :: ts)).isEmpty = false := by
    refine List.isEmpty_eq_false_iff.2 fun h => ?_
    rw [h] at hwords
    cases hwords
  simp [assemble, assembleAt, one_line (intercalate_newline _ hw) hne, collect, hwords, takeLabels, labelOf_spelling,
    assembleAll, hb]

/-- Settles O6: the line splits into the printed words, which read as the instruction's mnemonic and operands. -/
theorem assembleOfTextIsTheEncoding : Obligations.AssembleOfTextIsTheEncoding := by
  intro i
  have hw := whole_instrWords i
  rw [instrText]
  rw [instrWords_eq_cons] at hw ⊢
  exact assemble_line hw (assembleWords_of_instrOf (operandsOf_instrWords_tail [] i) (instrOf_instr i))

end Sys2Proof.Asm
end

section
/-! The frames that several families use: what changes in two steps one after the other, and a frame made narrower. -/

namespace Sys2Proof.Machine

open Sys2Proof.Spec

theorem field_same_trans {s t u : State} {f : Field} (hst : f.same s t) (htu : f.same t u) : f.same s u := by
  cases f with
  | v | stack | mem => exact fun k => (htu k).trans (hst k)
  | fb => exact fun cx cy => (htu cx cy).trans (hst cx cy)
  | driver =>
    obtain ⟨hpending, hphase, hsteps⟩ := hst
    obtain ⟨hpending', hphase', hsteps'⟩ := htu
    exact ⟨hpending'.trans hpending, hphase'.trans hphase, hsteps'.trans hsteps⟩
  | i | pc | sp | dt | st | run => exact htu.trans hst

theorem changesOnly_trans {s t u : State} {fs gs : List Field} (hst : changesOnly fs s t) (htu : changesOnly gs t u) :
    changesOnly (fs ++ gs) s u := fun f hf => by
  obtain ⟨hfs, hgs⟩ : f ∉ fs ∧ f ∉ gs := by simpa using hf
  exact field_same_trans (hst f hfs) (htu f hgs)

/-- A field of the frame that is the same after all need not be listed. -/
theorem changesOnly_narrow {s t : State} {fs gs : List Field} (h : changesOnly fs s t)
    (hsame : ∀ f ∈ fs, f ∉ gs → f.same s t) : changesOnly gs s t := fun f hg => by
  by_cases hf : f ∈ fs
  · exact hsame f hf hg
  · exact h f hf

/-- Raising a fault takes it (60 R210). -/
theorem faultTaken_raise (s : State) (c : Fault) (a o : Option Word) (n : Option Nat) :
    faultTaken s (s.raise c a o n) c a o n := ⟨rfl, changesOnly_setRun s _⟩

end Sys2Proof.Machine
end

section
/-! One `cpu_cycle` (40 R100): what the step of a cycle is, by the run state, the address and the word it finds. -/

namespace Sys2Proof.Machine

open Sys2Proof.Spec

theorem step_of_isCycle {s : State} (h : isCycle s) : step s = finishStep s.cpuCycle := by
  obtain ⟨keys, rnd, ht⟩ := h
  exact step_cycle ht

/-- A Running cycle that can fetch runs the word at pc, in the state of `atExecute`. -/
theorem step_of_fetchable {s : State} (hc : isCycle s) (hr : s.run = .running) (hpc : s.pc.toNat ≤ 0xFFE) :
    step s = finishStep ((atExecute s).runWord (wordAtPc s)) := by
  have hf : (s.setPhase .started).fetch = some (wordAtPc s) := (State.fetch_eq _).trans (if_pos hpc)
  rw [step_of_isCycle hc, State.cpuCycle_running hr, State.runningCycle, hf]
  rfl

/-- A Running cycle that cannot fetch raises the fault of the fetch. -/
theorem step_of_not_fetchable {s : State} (hc : isCycle s) (hr : s.run = .running) (hpc : 0xFFE < s.pc.toNat) :
    step s = .next (s.setPhase .started).raiseFetch.consume := by
  have hf : (s.setPhase .started).fetch = none := (State.fetch_eq _).trans (if_neg (Nat.not_le.2 hpc))
  rw [step_of_isCycle hc, State.cpuCycle_running hr, State.runningCycle, hf, finishStep_next]

theorem State.runWord_of_ok {op : Word} {i : Instr} (s : State) (h : decodeWord op = .ok i) :
    s.runWord op = exec i s := by
  rw [State.runWord, h]

theorem State.runWord_of_error {op : Word} {e : DecodeError} (s : State) (h : decodeWord op = .error e) :
    s.runWord op = .next (s.raiseWord op .unrecognizedOpcode none) := by
  rw [State.runWord, h]

/-- Two bytes decode to the instruction of their word. -/
theorem decodeWord_of_decode {hi lo : Byte} {i : Instr} {rest : List Byte} (h : decode [hi, lo] = .ok (i, rest)) :
    decodeWord (wordOfBytes hi lo) = .ok i := by
  cases hw : decodeWord (wordOfBytes hi lo) with
  | ok j =>
    obtain ⟨rfl, -⟩ : j = i ∧ [] = rest := by simpa [decode, hw] using h
    rfl
  | error e => simp [decode, hw] at h

/-- Every instruction answers a next state: the first half of `InputsAreSampledOnlyWhereUsed`, with the queue and the
counter the state has. -/
theorem exec_next (i : Instr) (s : State) : ∃ t, exec i s = .next t := by
  obtain ⟨t, ht, -⟩ := inputsAreSampledOnlyWhereUsed i s s.pending s.steps (fun _ => rfl) (fun _ => rfl)
  exact ⟨t, ht⟩

/-- The record of a fault of the fetched word: in the state of `atExecute`, pc - 2 is the address fetched from. -/
theorem faultTaken_raiseWord_atExecute (s : State) (op : Word) (c : Fault) (n : Option Nat) :
    faultTaken (atExecute s) ((atExecute s).raiseWord op c n) c (some s.pc) (some op) n := by
  have ha : (atExecute s).pc - 2 = s.pc := BitVec.add_sub_cancel s.pc 2
  rw [State.raiseWord, ha]
  exact faultTaken_raise ..

/-- Settles O12: the two bytes at pc are the word the cycle fetches. -/
theorem stepRunsDecodedInstruction : Obligations.StepRunsDecodedInstruction := by
  intro s i rest hc hr hpc _ hd
  have hw : decodeWord (wordAtPc s) = .ok i := decodeWord_of_decode hd
  rw [step_of_fetchable hc hr hpc, State.runWord_of_ok _ hw]

/-- Settles O13: one case a run state, and in Running one case each for the address and the word. -/
theorem cycleFollowsItsRunState : Obligations.CycleFollowsItsRunState := by
  refine fun s hc => ⟨fun rec hr => ?_, fun r hr => ?_, fun hr hpc => ?_, fun hr hpc hrec => ?_,
    fun hr hpc hrec => ?_⟩
  · rw [step_of_isCycle hc, State.cpuCycle_faulted hr, finishStep_next]
  · rw [step_of_isCycle hc, State.cpuCycle_awaitingKey hr, finishStep_next]
  · exact ⟨_, step_of_not_fetchable hc hr hpc, faultTaken_raise ..⟩
  · have hd := (decodeWord_unrecognized_iff _).2 hrec
    refine ⟨_, ?_, faultTaken_raiseWord_atExecute s (wordAtPc s) _ _⟩
    rw [step_of_fetchable hc hr hpc, State.runWord_of_error _ hd, finishStep_next]
  · obtain ⟨i, hd⟩ := (decodeWord_ok_iff_recognized _).2 hrec
    obtain ⟨t, ht⟩ := exec_next i (atExecute s)
    refine ⟨i, hd, t, ht, ?_⟩
    rw [step_of_fetchable hc hr hpc, State.runWord_of_ok _ hd, ht, finishStep_next]

end Sys2Proof.Machine
end

section
/-! Control flow (40 R101 to R109): jumps, skips, and the call stack. -/

namespace Sys2Proof.Machine

open Sys2Proof.Spec

/-! ### Jumps -/

theorem toNat_immAddr (nnn : Addr) : (immAddr nnn).toNat = nnn.toNat := by
  unfold immAddr
  bv_omega

/-- An immediate address and a byte never wrap (92 D24). -/
theorem toNat_immAddr_add_zext16 (nnn : Addr) (b : Byte) : (immAddr nnn + zext16 b).toNat = nnn.toNat + b.toNat := by
  unfold immAddr zext16
  bv_omega

/-- Settles O31: each sets pc and nothing else. -/
theorem jumps : Obligations.Jumps := fun nnn s =>
  ⟨⟨_, rfl, toNat_immAddr nnn, changesOnly_setPc s _⟩,
    ⟨_, rfl, toNat_immAddr_add_zext16 nnn (s.getV 0), changesOnly_setPc s _⟩⟩

/-! ### Skips -/

/-- A skip whose test is true exactly on `p` and false exactly on `q` (40 R101). -/
theorem skipIf_effect (s : State) {c : Bool} {p q : Prop} (hp : c = true ↔ p) (hq : c = false ↔ q) :
    changesOnly [.pc] s (s.skipIf c) ∧ (p → (s.skipIf c).pc = s.pc + 2) ∧ (q → (s.skipIf c).pc = s.pc) := by
  refine ⟨changesOnly_setPc s _, fun h => ?_, fun h => ?_⟩
  · rw [State.skipIf_pc, hp.2 h, if_pos rfl]
  · rw [State.skipIf_pc, hq.2 h, if_neg Bool.false_ne_true]

/-- Settles O32: the test is equality of a register and the immediate, or its negation. -/
theorem immediateSkips : Obligations.ImmediateSkips := fun _ _ s =>
  ⟨⟨_, rfl, skipIf_effect s beq_iff_eq beq_eq_false_iff_ne⟩,
    ⟨_, rfl, skipIf_effect s bne_iff_ne bne_eq_false_iff_eq⟩⟩

/-- Settles O33: the test is equality of two registers, or its negation. -/
theorem registerSkips : Obligations.RegisterSkips := fun _ _ s =>
  ⟨⟨_, rfl, skipIf_effect s beq_iff_eq beq_eq_false_iff_ne⟩,
    ⟨_, rfl, skipIf_effect s bne_iff_ne bne_eq_false_iff_eq⟩⟩

/-! ### The call stack -/

/-- RET with a return address held pops it. -/
theorem exec_ret_of_pos {s : State} (h : 0 < s.sp.val) :
    ∃ a s', s.pop = some (a, s') ∧ exec .ret s = .next (s'.setPc a) := by
  obtain ⟨hnone, -⟩ | hsome := exec_ret_cases s
  · exact absurd ((State.pop_none_iff s).1 hnone) (Nat.pos_iff_ne_zero.1 h)
  · exact hsome

/-- CALL with a free slot pushes the advanced pc. -/
theorem exec_callNnn_of_lt (nnn : Addr) {s : State} (h : s.sp.val < 16) :
    ∃ s', s.push s.pc = some s' ∧ exec (.callNnn nnn) s = .next (s'.setPc (immAddr nnn)) := by
  obtain ⟨hnone, -⟩ | hsome := exec_callNnn_cases nnn s
  · exact absurd ((State.push_none_iff s s.pc).1 hnone) (Nat.ne_of_lt h)
  · exact hsome

/-- A pop leaves every slot, the popped one included (92 D31). -/
theorem changesOnly_pop_setPc_keeps_stack {s t : State} {v : Word} (h : s.pop = some (v, t)) (w : Word) :
    changesOnly [.pc, .sp] s (t.setPc w) := by
  refine changesOnly_narrow (changesOnly_pop_setPc h w) fun f hf hg => ?_
  obtain rfl : f = .stack := by grind
  obtain ⟨-, -, rfl⟩ := State.pop_some h
  exact fun _ => rfl

/-- Settles O28: the popped slot is the one below the depth. -/
theorem retPopsTheReturnAddress : Obligations.RetPopsTheReturnAddress := by
  intro s n hn
  obtain ⟨a, s', hp, he⟩ := exec_ret_of_pos (s := s) (by omega)
  refine ⟨_, he, ?_, ?_, changesOnly_pop_setPc_keeps_stack hp a⟩ <;> obtain ⟨-, rfl, rfl⟩ := State.pop_some hp
  · simp [hn]
  · simp [hn, Vector.get_eq_getElem]

/-- Settles O29: the pushed slot is the one at the depth. -/
theorem callPushesTheAdvancedPc : Obligations.CallPushesTheAdvancedPc := by
  intro nnn s n hn
  obtain ⟨s', hp, he⟩ := exec_callNnn_of_lt nnn (s := s) (by omega)
  refine ⟨_, he, ?_, fun m hm => ?_, ?_, toNat_immAddr nnn, changesOnly_push_setPc hp _⟩ <;>
    obtain ⟨-, rfl⟩ := State.push_some hp
  · simp [hn, Vector.get_eq_getElem]
  · have hne : n.val ≠ m.val := fun h => hm (Fin.ext h.symm)
    simp [hn, hne, Vector.get_eq_getElem]
  · simp [hn]

/-- Settles O30: RET pops the slot CALL pushed, since a jump in between leaves the stack; pc and the depth, which both
write, come back to what they were. -/
theorem retUndoesCall : Obligations.RetUndoesCall := by
  intro nnn s t pc hs ht
  obtain ⟨t', ht', htop, -, htsp, -, hcall⟩ := callPushesTheAdvancedPc nnn s ⟨s.sp.val, hs⟩ rfl
  obtain rfl := Host.Outcome.next.inj (ht'.symm.trans ht)
  obtain ⟨u, hu, husp, hupc, hret⟩ := retPopsTheReturnAddress (t'.setPc pc) ⟨s.sp.val, hs⟩ htsp
  have hpc : u.pc = s.pc := hupc.trans htop
  have hsp : u.sp = s.sp := Fin.ext husp
  have hall := changesOnly_trans (changesOnly_trans hcall (changesOnly_setPc t' pc)) hret
  refine ⟨u, hu, hpc, hsp, changesOnly_narrow hall fun f hf hg => ?_⟩
  obtain rfl | rfl : f = .pc ∨ f = .sp := by grind
  · exact hpc
  · exact hsp

end Sys2Proof.Machine
end

section
/-! Load, arithmetic, logic and shift (41 R120 to R132): one register takes the result, and where there is a flag, VF
takes it last. -/

namespace Sys2Proof.Machine

open Sys2Proof.Spec

/-! ### Results without a flag -/

/-- Settles O34: each writes the loaded byte to Vx and nothing else. -/
theorem registerLoads : Obligations.RegisterLoads := fun x _ _ s =>
  ⟨⟨_, rfl, State.getV_setV_same s x _, regsOnly_setV s x _, changesOnly_setV s x _⟩,
    ⟨_, rfl, State.getV_setV_same s x _, regsOnly_setV s x _, changesOnly_setV s x _⟩⟩

/-- Settles O35: the sum of two bytes is the one of their numbers modulo 256. -/
theorem addImmediateWrapsWithoutFlag : Obligations.AddImmediateWrapsWithoutFlag := fun x kk s =>
  ⟨_, rfl, by rw [State.getV_setV_same, BitVec.toNat_add], regsOnly_setV s x _, changesOnly_setV s x _⟩

/-- Settles O36: the bits of the OR, AND and XOR of two bytes. -/
theorem logicWithoutFlag : Obligations.LogicWithoutFlag := fun x _ s =>
  ⟨⟨_, rfl, regsOnly_setV s x _, changesOnly_setV s x _, fun k _ => by
      rw [State.getV_setV_same, BitVec.getLsbD_or]⟩,
    ⟨_, rfl, regsOnly_setV s x _, changesOnly_setV s x _, fun k _ => by
      rw [State.getV_setV_same, BitVec.getLsbD_and]⟩,
    ⟨_, rfl, regsOnly_setV s x _, changesOnly_setV s x _, fun k _ => by
      rw [State.getV_setV_same, BitVec.getLsbD_xor]⟩⟩

/-! ### A result and the flag -/

/-- The flag is the last write, so it stands in VF whatever the destination (41 R132; 92 D8). -/
theorem State.getV_setResultFlag_flag (s : State) (x : Reg) (b : Byte) (c : Bool) :
    (s.setResultFlag x b c).getV 0xF = flagByte c :=
  State.getV_setV_same (s.setV x b) vf (flagByte c)

/-- A destination other than VF keeps the result. -/
theorem State.getV_setResultFlag_result (s : State) {x : Reg} (hx : x ≠ 0xF) (b : Byte) (c : Bool) :
    (s.setResultFlag x b c).getV x = b := by
  rw [State.getV_setResultFlag, if_neg (show x ≠ vf from hx), if_pos rfl]

theorem flagByte_decide_toNat (p : Prop) [Decidable p] : (flagByte (decide p)).toNat = if p then 1 else 0 := by
  simp only [flagByte_toNat, decide_eq_true_eq]

/-- What an operation with a flag does, given its result and its flag as numbers (41 R131, R132). -/
theorem setResultFlag_effect (s : State) (x : Reg) {b : Byte} {c : Bool} {m n : Nat} (hb : b.toNat = m)
    (hc : (flagByte c).toNat = n) :
    (x ≠ 0xF → ((s.setResultFlag x b c).getV x).toNat = m) ∧ ((s.setResultFlag x b c).getV 0xF).toNat = n ∧
      regsOnly [x, 0xF] s (s.setResultFlag x b c) ∧ changesOnly [.v] s (s.setResultFlag x b c) := by
  refine ⟨fun hx => ?_, ?_, regsOnly_setResultFlag s x b c, changesOnly_setResultFlag s x b c⟩
  · rw [State.getV_setResultFlag_result s hx, hb]
  · rw [State.getV_setResultFlag_flag, hc]

/-- Settles O37: the sum modulo 256, and the carry of the values before. -/
theorem addWithCarry : Obligations.AddWithCarry := fun x _ s =>
  ⟨_, rfl, setResultFlag_effect s x (BitVec.toNat_add _ _) (flagByte_decide_toNat _)⟩

/-- The difference of two bytes, plus 256 where it is negative (41 R127, R131). -/
theorem toNat_sub_byte (a b : Byte) : ((a - b).toNat : Int) =
    if b.toNat ≤ a.toNat then (a.toNat : Int) - b.toNat else (a.toNat : Int) - b.toNat + 256 := by
  split <;> bv_omega

/-- SUB and SUBN, whichever register the two bytes come from (41 R127, R129). -/
theorem setResultFlag_sub_effect (s : State) (x : Reg) (a b : Byte) :
    (x ≠ 0xF → (((s.setResultFlag x (a - b) (notBorrow a b)).getV x).toNat : Int) =
      if b.toNat ≤ a.toNat then (a.toNat : Int) - b.toNat else (a.toNat : Int) - b.toNat + 256) ∧
    ((s.setResultFlag x (a - b) (notBorrow a b)).getV 0xF).toNat = (if b.toNat ≤ a.toNat then 1 else 0) ∧
    regsOnly [x, 0xF] s (s.setResultFlag x (a - b) (notBorrow a b)) ∧
    changesOnly [.v] s (s.setResultFlag x (a - b) (notBorrow a b)) := by
  obtain ⟨hresult, hrest⟩ := setResultFlag_effect s x (b := a - b) rfl (flagByte_decide_toNat (b.toNat ≤ a.toNat))
  exact ⟨fun hx => (congrArg Nat.cast (hresult hx)).trans (toNat_sub_byte a b), hrest⟩

/-- Settles O38: the two subtractions differ in the order of the operands only. -/
theorem subtractWithNotBorrow : Obligations.SubtractWithNotBorrow := fun x y s =>
  ⟨⟨_, rfl, setResultFlag_sub_effect s x (s.getV x) (s.getV y)⟩,
    ⟨_, rfl, setResultFlag_sub_effect s x (s.getV y) (s.getV x)⟩⟩

theorem toNat_shiftRight_byte (a : Byte) : (shiftRight a).toNat = a.toNat / 2 := by
  rw [shiftRight, BitVec.toNat_ushiftRight, Nat.shiftRight_eq_div_pow, Nat.pow_one]

theorem toNat_shiftLeft_byte (a : Byte) : (shiftLeft a).toNat = 2 * a.toNat % 256 := by
  rw [shiftLeft, BitVec.toNat_shiftLeft, Nat.shiftLeft_eq, Nat.pow_one, Nat.mul_comm]

/-- A bit of a byte as a flag (10 R22). -/
theorem toNat_flagByte_getLsbD (a : Byte) (k : Nat) : (flagByte (a.getLsbD k)).toNat = a.toNat / 2 ^ k % 2 := by
  rw [BitVec.getLsbD, Nat.testBit_eq_decide_div_mod_eq, flagByte_decide_toNat]
  split <;> omega

/-- The bit SHR shifts out is the remainder of the halving (41 R128). -/
theorem toNat_flagByte_shiftedOutRight (a : Byte) : (flagByte (shiftedOutRight a)).toNat = a.toNat % 2 := by
  rw [shiftedOutRight, toNat_flagByte_getLsbD, Nat.pow_zero, Nat.div_one]

/-- The bit SHL shifts out is the highest, so nothing stands above it (41 R130). -/
theorem toNat_flagByte_shiftedOutLeft (a : Byte) : (flagByte (shiftedOutLeft a)).toNat = a.toNat / 128 := by
  rw [shiftedOutLeft, toNat_flagByte_getLsbD]
  omega

/-- Settles O39: half and double of the value before, and the bit shifted out. -/
theorem shiftsByOne : Obligations.ShiftsByOne := fun x _ s =>
  ⟨⟨_, rfl, setResultFlag_effect s x (toNat_shiftRight_byte _) (toNat_flagByte_shiftedOutRight _)⟩,
    ⟨_, rfl, setResultFlag_effect s x (toNat_shiftLeft_byte _) (toNat_flagByte_shiftedOutLeft _)⟩⟩

end Sys2Proof.Machine
end

section
/-! The index register and the random byte (42 R140 to R142, 45 R180): I or one register takes a value. -/

namespace Sys2Proof.Machine

open Sys2Proof.Spec

/-- A word and a byte, modulo 65536 (42 R141; 92 D9). -/
theorem toNat_add_zext16 (w : Word) (b : Byte) : (w + zext16 b).toNat = (w.toNat + b.toNat) % 65536 := by
  unfold zext16
  bv_omega

/-- The glyph address of a whole byte never wraps (45 R180; 92 D11). -/
theorem toNat_glyphAddr (d : Byte) : (glyphAddr d).toNat = 5 * d.toNat := by
  unfold glyphAddr fontBase glyphBytes
  bv_omega

/-- Settles O40: each writes I and nothing else. -/
theorem indexRegisterWrites : Obligations.IndexRegisterWrites := fun nnn x s =>
  ⟨⟨_, rfl, toNat_immAddr nnn, changesOnly_setI s _⟩,
    ⟨_, rfl, toNat_add_zext16 s.i (s.getV x), changesOnly_setI s _⟩,
    ⟨_, rfl, toNat_glyphAddr (s.getV x), changesOnly_setI s _⟩⟩

/-- The random byte of a cycle is the one its trigger brings (10 R35). -/
theorem State.rnd_of_pending {s : State} {keys : BitVec 16} {rnd : Byte} {rest : List Trigger}
    (h : s.pending = .cpuCycle keys rnd :: rest) : s.rnd = rnd := by
  rw [State.rnd, h]

/-- Settles O41: the bits of the AND of the sampled byte and the mask. -/
theorem randomUnderMask : Obligations.RandomUnderMask := fun x _ s =>
  ⟨⟨_, rfl, regsOnly_setV s x _, changesOnly_setV s x _, fun k _ => by
      rw [State.getV_setV_same, BitVec.getLsbD_and]⟩,
    fun _ _ _ => State.rnd_of_pending⟩

end Sys2Proof.Machine
end

section
/-! The display (43 R150 to R154): the sprite engine over all its rows, the two instructions that write the
framebuffer. -/

namespace Sys2Proof.Machine

open Sys2Proof.Spec

/-! ### The rows of a sprite -/

/-- A set bit of the rows `rows`, drawn at (x, y) as the rows from number `row` on, lies over the cell (px, py). -/
def spriteOver (x y : Byte) (row : Nat) (px : Fin 64) (py : Fin 32) : List Byte → Bool
  | [] => false
  | b :: bs => decide (py = wrapY y row) && bitOver x b 8 px || spriteOver x y (row + 1) px py bs

/-- The first row of a sprite, or one of the others, drawn one line lower. -/
theorem spriteSets_cons (x y : Byte) (row : Nat) (b : Byte) (bs : List Byte) (px : Fin 64) (py : Fin 32) :
    spriteSets x.toNat (y.toNat + row) (b :: bs) px py ↔
      (py = wrapY y row ∧ bitOver x b 8 px = true) ∨ spriteSets x.toNat (y.toNat + (row + 1)) bs px py := by
  simp only [spriteSets, bitOver_iff, Fin.ext_iff, wrapX, wrapY]
  constructor
  · rintro ⟨_ | k, col, hk, hcol, hbit, hx, hy⟩
    · exact Or.inl ⟨hy, col, hcol, hbit, hx⟩
    · exact Or.inr ⟨k, col, Nat.lt_of_succ_lt_succ hk, hcol, hbit, hx, by omega⟩
  · rintro (⟨hy, col, hcol, hbit, hx⟩ | ⟨k, col, hk, hcol, hbit, hx, hy⟩)
    · exact ⟨0, col, Nat.succ_pos _, hcol, hbit, hx, hy⟩
    · exact ⟨k + 1, col, Nat.succ_lt_succ hk, hcol, hbit, hx, by omega⟩

theorem spriteOver_iff {x y : Byte} {row : Nat} {rows : List Byte} {px : Fin 64} {py : Fin 32} :
    spriteOver x y row px py rows = true ↔ spriteSets x.toNat (y.toNat + row) rows px py := by
  induction rows generalizing row with
  | nil => simp [spriteOver, spriteSets]
  | cons b bs ih => simp [spriteOver, spriteSets_cons, ih]

/-- No later row lies over the line of a row. -/
theorem spriteOver_fresh (x y : Byte) {q row : Nat} {rows : List Byte} (px : Fin 64) (hq : q < row)
    (hrows : row + rows.length ≤ 16) : spriteOver x y row px (wrapY y q) rows = false := by
  induction rows generalizing row with
  | nil => rfl
  | cons b bs ih =>
    rw [List.length_cons] at hrows
    have hne : wrapY y q ≠ wrapY y row := fun h => by
      have := wrapY_inj (by omega) (by omega) h
      omega
    rw [spriteOver, ih (by omega) (by omega), decide_eq_false hne]
    rfl

/-- Exactly the cells under set bits are complemented: at most sixteen rows never meet, so no cell is complemented
twice. -/
theorem pixel_drawRows (x y : Byte) (c : Canvas) {row : Nat} {rows : List Byte} (px : Fin 64) (py : Fin 32)
    (hrows : row + rows.length ≤ 16) :
    pixel (drawRows x y row c rows).fb px py = (pixel c.fb px py ^^ spriteOver x y row px py rows) := by
  induction rows generalizing row c with
  | nil => exact (Bool.xor_false _).symm
  | cons b bs ih =>
    rw [List.length_cons] at hrows
    rw [drawRows, ih _ (by omega), pixel_drawRow, spriteOver]
    by_cases hy : py = wrapY y row
    · rw [hy, spriteOver_fresh x y px (Nat.lt_succ_self row) (by omega)]
      simp
    · simp [hy]

/-- A row collides when a cell under it was 1 before the row. -/
theorem hit_drawRow_iff (x : Byte) (cy : Fin 32) (b : Byte) (c : Canvas) :
    (drawRow x cy b c).hit = true ↔ c.hit = true ∨ ∃ px, bitOver x b 8 px = true ∧ pixel c.fb px cy = true := by
  rw [hit_drawRow]
  refine or_congr_right ⟨?_, ?_⟩
  · rintro ⟨col, hcol, hbit, hp⟩
    exact ⟨wrapX x col, bitOver_iff.2 ⟨col, hcol, hbit, rfl⟩, hp⟩
  · rintro ⟨px, hover, hp⟩
    obtain ⟨col, hcol, hbit, rfl⟩ := bitOver_iff.1 hover
    exact ⟨col, hcol, hbit, hp⟩

/-- A row leaves the cells that later rows lie over. -/
theorem spriteOver_and_pixel_drawRow (x y : Byte) (b : Byte) (c : Canvas) {row : Nat} {rows : List Byte} (px : Fin 64)
    (py : Fin 32) (hrows : row + 1 + rows.length ≤ 16) :
    (spriteOver x y (row + 1) px py rows && pixel (drawRow x (wrapY y row) b c).fb px py) =
      (spriteOver x y (row + 1) px py rows && pixel c.fb px py) := by
  by_cases hy : py = wrapY y row
  · rw [hy, spriteOver_fresh x y px (Nat.lt_succ_self row) hrows]
    rfl
  · simp [pixel_drawRow, hy]

/-- The collision result, told from the cells before the first of the rows. -/
theorem hit_drawRows (x y : Byte) (c : Canvas) {row : Nat} {rows : List Byte} (hrows : row + rows.length ≤ 16) :
    (drawRows x y row c rows).hit = true ↔
      c.hit = true ∨ ∃ px py, (spriteOver x y row px py rows && pixel c.fb px py) = true := by
  induction rows generalizing row c with
  | nil => simp [drawRows, spriteOver]
  | cons b bs ih =>
    rw [List.length_cons] at hrows
    simp only [drawRows, spriteOver, ih _ (show row + 1 + bs.length ≤ 16 by omega), hit_drawRow_iff,
      spriteOver_and_pixel_drawRow x y b c _ _ (show row + 1 + bs.length ≤ 16 by omega)]
    simp [or_and_right, exists_or, or_assoc, and_assoc]

/-! ### The sprite engine -/

theorem pixel_drawSprite (fb : Vector (BitVec 64) 32) (x y : Byte) {rows : List Byte} (hrows : rows.length ≤ 15)
    (px : Fin 64) (py : Fin 32) :
    pixel (drawSprite fb x y rows).fb px py = (pixel fb px py ^^ spriteOver x y 0 px py rows) :=
  pixel_drawRows x y _ px py (by omega)

theorem hit_drawSprite (fb : Vector (BitVec 64) 32) (x y : Byte) {rows : List Byte} (hrows : rows.length ≤ 15) :
    (drawSprite fb x y rows).hit = true ↔
      ∃ px py, spriteSets x.toNat y.toNat rows px py ∧ pixel fb px py = true := by
  rw [drawSprite, hit_drawRows x y _ (by omega)]
  simp [spriteOver_iff]

/-- Settles O43: the parallel form of the rows, from row 0 on. -/
theorem spriteEngineIsAParallelXor : Obligations.SpriteEngineIsAParallelXor := by
  refine fun fb x y rows hrows => ⟨fun px py hset => ?_, fun px py hclear => ?_, hit_drawSprite fb x y hrows⟩ <;>
    rw [pixel_drawSprite fb x y hrows]
  · rw [spriteOver_iff.2 hset, Bool.xor_true]
  · rw [Bool.eq_false_iff.2 fun h => hclear (spriteOver_iff.1 h), Bool.xor_false]

theorem drawSprite_drawSprite_fb (fb : Vector (BitVec 64) 32) (x y : Byte) {rows : List Byte}
    (hrows : rows.length ≤ 15) : (drawSprite (drawSprite fb x y rows).fb x y rows).fb = fb :=
  fb_ext fun px py => by simp [pixel_drawSprite _ x y hrows]

/-- Rows of zeros lie over no cell. -/
theorem not_spriteSets_of_forall_eq_zero {rows : List Byte} (hzero : ∀ row ∈ rows, row = 0) (x y : Nat) (px : Fin 64)
    (py : Fin 32) : ¬ spriteSets x y rows px py := by
  rintro ⟨k, col, hk, -, hbit, -⟩
  rw [hzero _ (List.getElem_mem hk)] at hbit
  simp at hbit

/-- Settles O45: two complements of a cell cancel; a clear cell that the sprite sets is 1 before the second draw. -/
theorem drawingTwiceRestoresTheFramebuffer : Obligations.DrawingTwiceRestoresTheFramebuffer := by
  intro fb x y rows hrows
  refine ⟨drawSprite_drawSprite_fb fb x y hrows, fun ⟨px, py, hset⟩ hclear => ?_, fun hzero => ?_⟩
  · refine (hit_drawSprite _ x y hrows).2 ⟨px, py, hset, ?_⟩
    rw [(spriteEngineIsAParallelXor fb x y rows hrows).1 px py hset, hclear px py hset, Bool.not_false]
  · refine Bool.eq_false_iff.2 fun hhit => ?_
    obtain ⟨px, py, hset, -⟩ := (hit_drawSprite fb x y hrows).1 hhit
    exact not_spriteSets_of_forall_eq_zero hzero _ _ px py hset

/-! ### The instructions -/

/-- Settles O42: CLS sets the framebuffer and nothing else. -/
theorem clearDisplay : Obligations.ClearDisplay := fun s =>
  ⟨_, rfl, fun _ _ => by simp [pixel, clearFb, Vector.get_eq_getElem], changesOnly_setFb s _⟩

theorem spriteRows_length_le (s : State) (n : Nibble) : (spriteRows s n).length ≤ 15 := by
  rw [spriteRows, List.length_map, List.length_range]
  omega

/-- Dxyn with its addresses valid, or none, draws the bytes from I. -/
theorem exec_drwVxVyN_of_valid (x y : Reg) {n : Nibble} {s : State}
    (h : n.toNat = 0 ∨ s.i.toNat + n.toNat - 1 ≤ 0xFFF) :
    exec (.drwVxVyN x y n) s = .next (s.setCanvas (drawSprite s.fb (s.getV x) (s.getV y) (spriteRows s n))) := by
  obtain ⟨hnone, -⟩ | ⟨rows, hrows, he⟩ := exec_drwVxVyN_cases x y n s
  · obtain ⟨hn, hout⟩ := (State.readBlock_none_iff ..).1 hnone
    rw [State.indexBase] at hout
    rw [rowCount] at hn hout
    omega
  · obtain ⟨-, rfl⟩ := State.readBlock_some hrows
    exact he

theorem getV_setCanvas_flag (s : State) (c : Canvas) : (s.setCanvas c).getV 0xF = flagByte c.hit :=
  State.getV_setV_same (s.setFb c.fb) vf (flagByte c.hit)

/-- Settles O44: the cells and the collision are the sprite engine's, and VF is written last. -/
theorem drawSpriteAtRegisters : Obligations.DrawSpriteAtRegisters := by
  intro x y n s hvalid
  obtain ⟨hset, hclear, hhit⟩ :=
    spriteEngineIsAParallelXor s.fb (s.getV x) (s.getV y) (spriteRows s n) (spriteRows_length_le s n)
  refine ⟨_, exec_drwVxVyN_of_valid x y hvalid, hset, hclear, fun hone => ?_, fun hzero => ?_,
    regsOnly_setCanvas s _, changesOnly_setCanvas s _⟩ <;> rw [getV_setCanvas_flag]
  · rw [hhit.2 hone]
    rfl
  · have hnohit : (drawSprite s.fb (s.getV x) (s.getV y) (spriteRows s n)).hit = false := by
      refine Bool.eq_false_iff.2 fun h => ?_
      obtain ⟨px, py, hs, hp⟩ := hhit.1 h
      exact Bool.false_ne_true ((hzero px py hs).symm.trans hp)
    rw [hnohit]
    rfl

end Sys2Proof.Machine
end

section
/-! Keys, timers and the key wait (44 R160 to R166): a skip by a key, a copy between a register and a timer, and the
cycles of a wait one after the other. -/

namespace Sys2Proof.Machine

open Sys2Proof.Spec

/-! ### The keys of a cycle -/

/-- The keys of a cycle are those its trigger brings (10 R34). -/
theorem State.keys_of_pending {s : State} {keys : BitVec 16} {rnd : Byte} {rest : List Trigger}
    (h : s.pending = .cpuCycle keys rnd :: rest) : s.keys = keys := by
  rw [State.keys, h]

theorem isCycle_of_pending {s : State} {keys : BitVec 16} {rnd : Byte} {rest : List Trigger}
    (h : s.pending = .cpuCycle keys rnd :: rest) : isCycle s :=
  ⟨keys, rnd, by rw [State.trigger, h]⟩

/-- A pressed key with none pressed below it is the lowest. -/
theorem lowestKey_eq_some {keys : BitVec 16} {k : Nat} (hk : k < 16) (hdown : keys.getLsbD k = true)
    (hlow : ∀ j, j < k → keys.getLsbD j = false) : lowestKey keys = some k :=
  List.find?_range_eq_some.2 ⟨hdown, List.mem_range.2 hk, fun j hj => by simp [hlow j hj]⟩

/-! ### The instructions -/

/-- Settles O26: the test is the level of the key, or its negation. -/
theorem keySkips : Obligations.KeySkips := by
  intro x s hx
  refine ⟨?_, ?_, fun keys rnd rest => State.keys_of_pending⟩
  · obtain ⟨hgt, -⟩ | ⟨-, he⟩ := exec_skpVx_cases x s
    · omega
    · exact ⟨_, he, changesOnly_setPc s _, s.skipIf_pc _⟩
  · obtain ⟨hgt, -⟩ | ⟨-, he⟩ := exec_sknpVx_cases x s
    · omega
    · refine ⟨_, he, changesOnly_setPc s _, ?_⟩
      rw [State.skipIf_pc, State.keyDown]
      cases s.keys.getLsbD (s.getV x).toNat <;> rfl

/-- Settles O27: above 0xF no key has the index, and each skip raises its fault. -/
theorem keySkipsFaultOnAnIndexAboveF : Obligations.KeySkipsFaultOnAnIndexAboveF := by
  refine fun x s hx => ⟨?_, ?_⟩
  · obtain ⟨-, he⟩ | ⟨hle, -⟩ := exec_skpVx_cases x s
    · exact ⟨_, he, faultTaken_raise ..⟩
    · omega
  · obtain ⟨-, he⟩ | ⟨hle, -⟩ := exec_sknpVx_cases x s
    · exact ⟨_, he, faultTaken_raise ..⟩
    · omega

/-- Settles O24: each writes the one register or the one timer it copies to. -/
theorem timerAccess : Obligations.TimerAccess := fun x s =>
  ⟨⟨_, rfl, State.getV_setV_same s x _, regsOnly_setV s x _, changesOnly_setV s x _⟩,
    ⟨_, rfl, rfl, changesOnly_setDt s _⟩, ⟨_, rfl, rfl, changesOnly_setSt s _⟩⟩

/-- Settles O25: Fx0A sets the run state and nothing else. -/
theorem keyWaitIsEntered : Obligations.KeyWaitIsEntered := fun x s =>
  ⟨_, rfl, rfl, changesOnly_setRun s (.awaitingKey x)⟩

/-! ### One poll -/

theorem changesOnly_consume (s : State) : changesOnly [.driver] s s.consume :=
  fun f hf => by cases f <;> simp_all [Field.same, State.getV, State.readByte]

theorem changesOnly_setPhase (s : State) (p : Phase) : changesOnly [.driver] s (s.setPhase p) :=
  fun f hf => by cases f <;> simp_all [Field.same, State.getV, State.readByte]

theorem step_of_awaitingKey {s : State} {r : Reg} (hc : isCycle s) (hr : s.run = .awaitingKey r) :
    step s = .next (s.poll r).consume :=
  (cycleFollowsItsRunState s hc).2.1 r hr

/-- The state after a poll that found the key of index `b`: the wait for register `r` is over. -/
def State.afterKey (s : State) (r : Reg) (b : Byte) : State := ((s.setV r b).setRun .running).consume

theorem step_of_key_down {s : State} {r : Reg} {k : Nat} (hc : isCycle s) (hr : s.run = .awaitingKey r)
    (hk : lowestKey s.keys = some k) : step s = .next (s.afterKey r (BitVec.ofNat 8 k)) := by
  rw [step_of_awaitingKey hc hr, State.poll, hk]
  rfl

theorem step_of_no_key_down {s : State} {r : Reg} (hc : isCycle s) (hr : s.run = .awaitingKey r)
    (hup : ∀ k < 16, s.keys.getLsbD k = false) : step s = .next s.consume := by
  rw [step_of_awaitingKey hc hr, State.poll, (lowestKey_none_iff s.keys).2 hup]

theorem getV_afterKey_same (s : State) (r : Reg) (b : Byte) : (s.afterKey r b).getV r = b :=
  State.getV_setV_same s r b

theorem regsOnly_afterKey (s : State) (r : Reg) (b : Byte) : regsOnly [r] s (s.afterKey r b) :=
  regsOnly_setV s r b

theorem changesOnly_afterKey (s : State) (r : Reg) (b : Byte) :
    changesOnly [.v, .run, .driver] s (s.afterKey r b) :=
  changesOnly_trans (changesOnly_trans (changesOnly_setV s r b) (changesOnly_setRun _ _)) (changesOnly_consume _)

/-- Settles O22: the poll stores the key it finds; without one, only the trigger is gone. -/
theorem pollStoresTheLowestPressedKey : Obligations.PollStoresTheLowestPressedKey := by
  intro s r hc hr
  refine ⟨_, step_of_awaitingKey hc hr, fun k hk hdown hlow => ?_, fun hup => ?_⟩
  · have he := step_of_key_down hc hr (lowestKey_eq_some hk hdown hlow)
    rw [Host.Outcome.next.inj ((step_of_awaitingKey hc hr).symm.trans he)]
    exact ⟨getV_afterKey_same s r _, regsOnly_afterKey s r _, rfl, changesOnly_afterKey s r _⟩
  · rw [Host.Outcome.next.inj ((step_of_awaitingKey hc hr).symm.trans (step_of_no_key_down hc hr hup))]
    exact changesOnly_consume s

/-! ### The whole wait -/

/-- A run begins with its first step. -/
theorem core_run_succ {s t : State} (h : step s = .next t) (n : Nat) :
    Host.Core.run core (n + 1) s = Host.Core.run core n t := by
  have hstep : core.step s = .next t := h
  simp only [Host.Core.run, hstep]

/-- The state after the cycle that entered the wait for register `x`. -/
def State.afterLdVxK (s : State) (x : Reg) : State := ((atExecute s).setRun (.awaitingKey x)).consume

/-- The cycle of Fx0A. -/
theorem step_ldVxK {s : State} {x : Reg} (hc : isCycle s) (hr : s.run = .running) (hpc : s.pc.toNat ≤ 0xFFE)
    (hd : decodeWord (wordAtPc s) = .ok (.ldVxK x)) : step s = .next (s.afterLdVxK x) := by
  rw [step_of_fetchable hc hr hpc, State.runWord_of_ok _ hd]
  rfl

theorem changesOnly_afterLdVxK (s : State) (x : Reg) : changesOnly [.driver, .pc, .run, .driver] s (s.afterLdVxK x) :=
  changesOnly_trans
    (changesOnly_trans (changesOnly_trans (changesOnly_setPhase s .started) (changesOnly_setPc _ _))
      (changesOnly_setRun _ _))
    (changesOnly_consume _)

theorem field_same_refl (s : State) (f : Field) : f.same s s := by
  cases f <;> simp [Field.same]

/-- Polls with no key down use up their triggers and change nothing else; the run goes on from there. -/
theorem run_polls_with_no_key {x : Reg} {rest : List Trigger} (n : Nat) (rnds : List Byte) {s : State}
    (hr : s.run = .awaitingKey x) (hp : s.pending = rnds.map (.cpuCycle 0) ++ rest) :
    ∃ t, Host.Core.run core (rnds.length + n) s = Host.Core.run core n t ∧ t.pending = rest ∧
      changesOnly [.driver] s t := by
  induction rnds generalizing s with
  | nil => exact ⟨s, by rw [List.length_nil, Nat.zero_add], hp, fun f _ => field_same_refl s f⟩
  | cons rnd rnds ih =>
    rw [List.map_cons, List.cons_append] at hp
    have hstep : step s = .next s.consume := by
      refine step_of_no_key_down (isCycle_of_pending hp) hr fun k _ => ?_
      rw [State.keys_of_pending hp]
      exact BitVec.getLsbD_zero
    obtain ⟨t, hrun, hrest, hsame⟩ := ih (s := s.consume) hr (by rw [State.consume_pending, hp, List.tail_cons])
    refine ⟨t, ?_, hrest, fun f hf => field_same_trans (changesOnly_consume s f hf) (hsame f hf)⟩
    rw [List.length_cons, Nat.add_right_comm, core_run_succ hstep, hrun]

/-- Settles O23: the cycle that enters the wait, the polls without a key, the poll with one; the run state, which the
first and the last write, comes back to Running. -/
theorem keyWaitEndsAtTheFirstPressedKey : Obligations.KeyWaitEndsAtTheFirstPressedKey := by
  intro s x k keys0 keys rnd0 rnd rnds rest hr hpc hd hp hk hdown hlow
  have henter := step_ldVxK (isCycle_of_pending hp) hr hpc hd
  obtain ⟨u, hrun, hup, hpolls⟩ := run_polls_with_no_key (s := s.afterLdVxK x) (x := x) 1 rnds rfl
    (congrArg List.tail hp)
  have hur : u.run = .awaitingKey x := hpolls .run (by simp)
  have hlast : step u = .next (u.afterKey x (BitVec.ofNat 8 k)) := by
    refine step_of_key_down (isCycle_of_pending hup) hur ?_
    rw [State.keys_of_pending hup, lowestKey_eq_some hk hdown hlow]
  have hwait := changesOnly_trans (changesOnly_afterLdVxK s x) hpolls
  refine ⟨_, (core_run_succ henter _).trans (hrun.trans (core_run_succ hlast 0)), rfl, hpolls .pc (by simp),
    getV_afterKey_same u x _, fun z hz => ?_, ?_, congrArg List.tail hup⟩
  · exact (regsOnly_afterKey u x _ z hz).trans (hwait .v (by simp) z)
  · refine changesOnly_narrow (changesOnly_trans hwait (changesOnly_afterKey u x _)) fun f hf hg => ?_
    obtain rfl : f = .run := by grind
    exact hr.symm

end Sys2Proof.Machine
end

section
/-! The three accesses through I with their addresses valid (45 R181 to R183): what Fx33 and Fx55 store, what Fx65 loads,
and what each leaves. -/

namespace Sys2Proof.Machine

open Sys2Proof.Spec

/-! ### The stores -/

theorem changesOnly_writeBlock {s t : State} {base : Nat} {bytes : List Byte} (h : s.writeBlock base bytes = some t) :
    changesOnly [.mem] s t := by
  obtain ⟨-, rfl⟩ := State.writeBlock_some h
  exact changesOnly_setMem s _

theorem bytesOnly_writeBlock {s t : State} {base n : Nat} {bytes : List Byte} (h : s.writeBlock base bytes = some t)
    (hn : bytes.length = n) : bytesOnly base n s t := by
  subst hn
  exact fun _ => State.readByte_writeBlock_outside h

theorem toNat_byte_of_lt {n : Nat} (h : n < 256) : (BitVec.ofNat 8 n).toNat = n := by
  rw [BitVec.toNat_ofNat, Nat.mod_eq_of_lt h]

/-- Settles O47: the three stored bytes are the digits, and a digit fits a byte. -/
theorem storeDecimalDigits : Obligations.StoreDecimalDigits := by
  intro x s hm hi
  obtain ⟨t, hw, he⟩ := exec_ldBVx_of_valid (x := x) hi
  have hv := (s.getV x).isLt
  refine ⟨t, he, ?_, ?_, ?_, bytesOnly_writeBlock hw (bcdDigits_length _), changesOnly_writeBlock hw⟩ <;>
    rw [readByte_store_bcdDigits hm hw, byteAfterDigits]
  · rw [if_pos rfl, toNat_byte_of_lt (by omega)]
  · rw [if_neg (by omega), if_pos rfl, toNat_byte_of_lt (by omega)]
  · rw [if_neg (by omega), if_neg (by omega), if_pos rfl, toNat_byte_of_lt (by omega)]

/-- Settles O48: the byte stored at I + k is the one of register k, whatever k up to x. -/
theorem dumpRegisters : Obligations.DumpRegisters := by
  intro x s hm hi
  obtain ⟨t, hw, he⟩ := exec_ldMemIVx_of_valid hi
  refine ⟨t, he, fun k hk => ?_, bytesOnly_writeBlock hw (State.regsTo_length s x), changesOnly_writeBlock hw⟩
  rw [readByte_store_regsTo hm hw, byteAfterDump, if_pos (by omega), Nat.add_sub_cancel_left, Fin.ofNat_val_eq_self]

/-! ### The load -/

/-- The bytes Fx65 loads: one for each of V0 to Vx. -/
def indexBytes (x : Reg) (s : State) : List Byte := (List.range (x.val + 1)).map fun k => s.readByte (s.i.toNat + k)

theorem indexBytes_length (x : Reg) (s : State) : (indexBytes x s).length = x.val + 1 := by
  rw [indexBytes, List.length_map, List.length_range]

/-- Fx65 with its addresses valid loads them. -/
theorem exec_ldVxMemI_of_valid {x : Reg} {s : State} (h : s.i.toNat + x.val ≤ 0xFFF) :
    exec (.ldVxMemI x) s = .next (s.setRegs (fillRegs s.v 0 (indexBytes x s))) := by
  obtain ⟨hnone, -⟩ | ⟨bytes, hbytes, he⟩ := exec_ldVxMemI_cases x s
  · obtain ⟨-, hout⟩ := (State.readBlock_none_iff ..).1 hnone
    rw [State.indexBase] at hout
    omega
  · obtain ⟨-, rfl⟩ := State.readBlock_some hbytes
    exact he

/-- A list of bytes loaded from V0 on gives each register it reaches the byte at the register's index. -/
theorem getV_setRegs_fillRegs_of_lt (s : State) {bytes : List Byte} {z : Reg} (hz : z.val < bytes.length) :
    (s.setRegs (fillRegs s.v 0 bytes)).getV z = bytes[z.val] := by
  rw [State.getV, State.setRegs_v, fillRegs_get, if_pos (Nat.zero_le _), Nat.sub_zero, List.getD_eq_getElem _ _ hz]

/-- Settles O49: register k is inside the list for k up to x and beyond it above x. -/
theorem loadRegisters : Obligations.LoadRegisters := by
  intro x s hi
  have hlen := indexBytes_length x s
  refine ⟨_, exec_ldVxMemI_of_valid hi, fun k hk => ?_, fun k hk => ?_, changesOnly_setRegs s _⟩
  · rw [getV_setRegs_fillRegs_of_lt s (by omega)]
    simp [indexBytes]
  · exact getV_setRegs_fillRegs (by omega)

end Sys2Proof.Machine
end

section
/-! Exceptions (60 R200 to R216): what an instruction answers by the table of its fault, which steps answer, what a
fault records, what leaves Faulted, and the timer tick. -/

namespace Sys2Proof.Machine

open Sys2Proof.Spec

theorem isFaulted_iff (s : State) : s.isFaulted = true ↔ ∃ rec, s.run = .faulted rec := by
  unfold State.isFaulted
  cases s.run <;> simp

/-! ### The fault of an instruction -/

/-- The addresses of a block read from I are not all valid (60 R206). -/
theorem indexRead_none_iff (s : State) (n : Nat) :
    s.readBlock s.indexBase n = none ↔ 0 < n ∧ 0xFFF < s.i.toNat + n - 1 := by
  rw [State.readBlock_none_iff, State.indexBase]
  omega

/-- The addresses of a block write from I are not all valid (60 R206). -/
theorem indexWrite_none_iff (s : State) (bytes : List Byte) :
    s.writeBlock s.indexBase bytes = none ↔ 0 < bytes.length ∧ 0xFFF < s.i.toNat + bytes.length - 1 := by
  rw [State.writeBlock_none_iff, State.indexBase]
  omega

theorem State.pop_run {s t : State} {v : Word} (h : s.pop = some (v, t)) : t.run = s.run := by
  obtain ⟨-, -, rfl⟩ := State.pop_some h
  rfl

theorem State.push_run {s t : State} {v : Word} (h : s.push v = some t) : t.run = s.run := by
  obtain ⟨-, rfl⟩ := State.push_some h
  rfl

theorem State.writeBlock_run {s t : State} {base : Nat} {bytes : List Byte} (h : s.writeBlock base bytes = some t) :
    t.run = s.run := by
  obtain ⟨-, rfl⟩ := State.writeBlock_some h
  rfl

/-- An instruction that took no fault: it left the run state, or it entered the key wait. -/
def ranOn (s t : State) : Prop := t.run = s.run ∨ ∃ x, t.run = .awaitingKey x

/-- What an instruction answers: the fault the table gives it, raised; or, where it gives none, a state in which it ran
on (60 R201). -/
theorem exec_cases_of_faultOf (i : Instr) (s : State) :
    (∃ cause info, faultOf i s = some (cause, info) ∧ exec i s = .next (s.raiseInstr i cause info)) ∨
      (faultOf i s = none ∧ ∃ t, exec i s = .next t ∧ ranOn s t) := by
  cases i with
  | cls | jpNnn | seVxKk | sneVxKk | seVxVy | ldVxKk | addVxKk | ldVxVy | orVxVy | andVxVy | xorVxVy | addVxVy | subVxVy
  | shrVx | subnVxVy | shlVx | sneVxVy | ldINnn | jpV0Nnn | rndVxKk | ldVxDt | ldDtVx | ldStVx | addIVx | ldFVx =>
    exact Or.inr ⟨rfl, _, rfl, Or.inl rfl⟩
  | ldVxK x => exact Or.inr ⟨rfl, _, rfl, Or.inr ⟨x, rfl⟩⟩
  | ret =>
    have hiff := s.pop_none_iff
    obtain ⟨hp, he⟩ | ⟨a, s', hp, he⟩ := exec_ret_cases s
    · exact Or.inl ⟨_, _, if_pos (hiff.1 hp), he⟩
    · exact Or.inr ⟨if_neg fun hsp => by simp [hiff.2 hsp] at hp, _, he,
        Or.inl ((s'.setPc_run a).trans (State.pop_run hp))⟩
  | callNnn nnn =>
    have hiff := s.push_none_iff s.pc
    obtain ⟨hp, he⟩ | ⟨s', hp, he⟩ := exec_callNnn_cases nnn s
    · exact Or.inl ⟨_, _, if_pos (hiff.1 hp), he⟩
    · exact Or.inr ⟨if_neg fun hsp => by simp [hiff.2 hsp] at hp, _, he,
        Or.inl ((s'.setPc_run _).trans (State.push_run hp))⟩
  | skpVx x =>
    obtain ⟨hk, he⟩ | ⟨hk, he⟩ := exec_skpVx_cases x s
    · exact Or.inl ⟨_, _, if_pos hk, he⟩
    · exact Or.inr ⟨if_neg (Nat.not_lt.2 hk), _, he, Or.inl rfl⟩
  | sknpVx x =>
    obtain ⟨hk, he⟩ | ⟨hk, he⟩ := exec_sknpVx_cases x s
    · exact Or.inl ⟨_, _, if_pos hk, he⟩
    · exact Or.inr ⟨if_neg (Nat.not_lt.2 hk), _, he, Or.inl rfl⟩
  | drwVxVyN x y n =>
    have hiff := indexRead_none_iff s (rowCount n)
    obtain ⟨hb, he⟩ | ⟨rows, hb, he⟩ := exec_drwVxVyN_cases x y n s
    · exact Or.inl ⟨_, _, if_pos (hiff.1 hb), he⟩
    · exact Or.inr ⟨if_neg fun hout => by simp [hiff.2 hout] at hb, _, he, Or.inl rfl⟩
  | ldBVx x =>
    have hiff := indexWrite_none_iff s (bcdDigits (s.getV x))
    rw [bcdDigits_length] at hiff
    obtain ⟨hb, he⟩ | ⟨s', hb, he⟩ := exec_ldBVx_cases x s
    · exact Or.inl ⟨_, _, if_pos (hiff.1 hb).2, he⟩
    · exact Or.inr ⟨if_neg fun hout => by simp [hiff.2 ⟨by decide, hout⟩] at hb, _, he,
        Or.inl (State.writeBlock_run hb)⟩
  | ldMemIVx x =>
    have hiff := indexWrite_none_iff s (s.regsTo x)
    rw [State.regsTo_length] at hiff
    obtain ⟨hb, he⟩ | ⟨s', hb, he⟩ := exec_ldMemIVx_cases x s
    · exact Or.inl ⟨_, _, if_pos (hiff.1 hb).2, he⟩
    · exact Or.inr ⟨if_neg fun hout => by simp [hiff.2 ⟨x.val.succ_pos, hout⟩] at hb, _, he,
        Or.inl (State.writeBlock_run hb)⟩
  | ldVxMemI x =>
    have hiff := indexRead_none_iff s (x.val + 1)
    obtain ⟨hb, he⟩ | ⟨bytes, hb, he⟩ := exec_ldVxMemI_cases x s
    · exact Or.inl ⟨_, _, if_pos (hiff.1 hb).2, he⟩
    · exact Or.inr ⟨if_neg fun hout => by simp [hiff.2 ⟨x.val.succ_pos, hout⟩] at hb, _, he, Or.inl rfl⟩

/-- An instruction raises the fault the table gives it, and so takes it (60 R210). -/
theorem exec_takes_faultOf {i : Instr} {s : State} {cause : Fault} {info : Option Nat}
    (h : faultOf i s = some (cause, info)) :
    ∃ t, exec i s = .next t ∧ faultTaken s t cause (some (s.pc - 2)) (some (encode i)) info := by
  obtain ⟨cause', info', hf, he⟩ | ⟨hnone, -⟩ := exec_cases_of_faultOf i s
  · obtain ⟨rfl, rfl⟩ : cause' = cause ∧ info' = info := by simpa [hf] using h
    exact ⟨_, he, faultTaken_raise ..⟩
  · simp [hnone] at h

theorem not_faulted_of_ranOn {s t : State} (h : ranOn s t) (hs : s.run = .running) (rec : FaultRecord) :
    t.run ≠ .faulted rec := by
  obtain hr | ⟨x, hr⟩ := h <;> simp [hr, hs]

/-- Settles O15: each instruction answers its effect or its fault. -/
theorem execAlwaysAnswers : Obligations.ExecAlwaysAnswers := exec_next

/-- Settles O16: the two cases of what an instruction answers are those of the table. -/
theorem faultsAreThoseOfTheTable : Obligations.FaultsAreThoseOfTheTable := by
  intro i s hs
  obtain ⟨cause, info, hf, -⟩ | ⟨hnone, t, he, hran⟩ := exec_cases_of_faultOf i s
  · obtain ⟨t, he, htaken⟩ := exec_takes_faultOf hf
    refine ⟨t, he, fun cause' info' hf' => ?_, fun hnone => ?_⟩
    · obtain ⟨rfl, rfl⟩ : cause = cause' ∧ info = info' := by simpa [hf] using hf'
      exact htaken
    · simp [hf] at hnone
  · refine ⟨t, he, fun cause info hf => by simp [hnone] at hf, fun _ => ?_⟩
    rw [Bool.eq_false_iff, Ne, isFaulted_iff]
    exact fun ⟨rec, hrec⟩ => not_faulted_of_ranOn hran hs rec hrec

/-- Settles O18: depth 16 is the table's condition for CALL. -/
theorem callOnAFullStackFaults : Obligations.CallOnAFullStackFaults := by
  intro nnn s hsp
  obtain ⟨t, he, hrun, hsame⟩ := exec_takes_faultOf (i := .callNnn nnn) (if_pos hsp)
  exact ⟨t, _, he, hrun, rfl, hsame⟩

/-- Settles O19: depth 0 is the table's condition for RET. -/
theorem retOnAnEmptyStackFaults : Obligations.RetOnAnEmptyStackFaults := by
  intro s hsp
  obtain ⟨t, he, hrun, hsame⟩ := exec_takes_faultOf (i := .ret) (if_pos hsp)
  exact ⟨t, _, he, hrun, rfl, hsame⟩

/-- Settles O50: an address above 0xFFF is the table's condition for each access through I. -/
theorem indexAccessIsAllOrNothing : Obligations.IndexAccessIsAllOrNothing := fun x y n _ =>
  ⟨fun hn hout => exec_takes_faultOf (i := .drwVxVyN x y n) (if_pos ⟨hn, hout⟩),
    fun hout => exec_takes_faultOf (i := .ldBVx x) (if_pos hout),
    fun hout => ⟨exec_takes_faultOf (i := .ldMemIVx x) (if_pos hout),
      exec_takes_faultOf (i := .ldVxMemI x) (if_pos hout)⟩⟩

/-! ### The fault of a cycle -/

/-- A word that ends in Faulted raised its fault itself: the decoder's, or that of the instruction it encodes. -/
theorem raiseWord_of_runWord_faulted {s t : State} {op : Word} {rec : FaultRecord} (hs : s.run = .running)
    (h : s.runWord op = .next t) (hrec : t.run = .faulted rec) : ∃ cause info, t = s.raiseWord op cause info := by
  cases hd : decodeWord op with
  | error e => exact ⟨_, _, Host.Outcome.next.inj (h.symm.trans (s.runWord_of_error hd))⟩
  | ok i =>
    rw [State.runWord_of_ok s hd] at h
    obtain ⟨cause, info, -, he⟩ | ⟨-, t', he, hran⟩ := exec_cases_of_faultOf i s <;>
      obtain rfl := Host.Outcome.next.inj (h.symm.trans he)
    · rw [State.raiseInstr, encodeOfDecodeIsTheWord op i hd]
      exact ⟨cause, info, rfl⟩
    · exact absurd hrec (not_faulted_of_ranOn hran hs rec)

theorem finishStep_eq_next {o : Host.Outcome State Fault Refusal} {t : State} (h : finishStep o = .next t) :
    ∃ s, o = .next s ∧ t = s.consume := by
  cases o with
  | next s => exact ⟨s, rfl, (Host.Outcome.next.inj h).symm⟩
  | fault r => cases h
  | refused r => cases h

theorem changesOnly_atExecute (s : State) : changesOnly [.driver, .pc] s (atExecute s) :=
  changesOnly_trans (changesOnly_setPhase s .started) (changesOnly_setPc _ _)

/-- Settles O17: the fault was raised by the fetched word in the state of `atExecute`, so its record names the address
fetched from. -/
theorem faultRecordNamesTheFetchedWord : Obligations.FaultRecordNamesTheFetchedWord := by
  intro s t rec hc hr hpc hstep hrec
  rw [step_of_fetchable hc hr hpc] at hstep
  obtain ⟨t', ht', rfl⟩ := finishStep_eq_next hstep
  obtain ⟨cause, info, rfl⟩ := raiseWord_of_runWord_faulted (s := atExecute s) (t := t') hr ht' hrec
  obtain ⟨hrun, hsame⟩ := faultTaken_raiseWord_atExecute s (wordAtPc s) cause info
  obtain rfl : _ = rec := Run.faulted.inj (hrun.symm.trans hrec)
  have hall := changesOnly_trans (changesOnly_trans (changesOnly_atExecute s) hsame) (changesOnly_consume _)
  exact ⟨rfl, rfl, rfl, changesOnly_narrow hall fun f hf hg => absurd hf (by grind)⟩

/-! ### The steps that answer, and the way out of Faulted -/

theorem step_of_trigger {s : State} {trigger : Trigger} (h : s.trigger = trigger) :
    step s = finishStep (s.perform trigger) := by
  rw [step, stepMachine, h]

theorem State.runWord_next (s : State) (op : Word) : ∃ t, s.runWord op = .next t := by
  cases hd : decodeWord op with
  | ok i =>
    rw [State.runWord_of_ok s hd]
    exact exec_next i s
  | error e => exact ⟨_, s.runWord_of_error hd⟩

/-- A cycle answers a next state in every run state. -/
theorem step_next_of_isCycle {s : State} (hc : isCycle s) : ∃ t, step s = .next t := by
  obtain ⟨hfaulted, hwait, -⟩ := cycleFollowsItsRunState s hc
  cases hr : s.run with
  | faulted rec => exact ⟨_, hfaulted rec hr⟩
  | awaitingKey r => exact ⟨_, hwait r hr⟩
  | running =>
    by_cases hpc : s.pc.toNat ≤ 0xFFE
    · obtain ⟨t, ht⟩ := (atExecute s).runWord_next (wordAtPc s)
      exact ⟨_, by rw [step_of_fetchable hc hr hpc, ht, finishStep_next]⟩
    · exact ⟨_, step_of_not_fetchable hc hr (Nat.not_le.1 hpc)⟩

/-- Settles O14: one case a trigger; of the three things a load can do, one is the refusal. -/
theorem stepAnswersUnlessALoadIsRefused : Obligations.StepAnswersUnlessALoadIsRefused := by
  intro s
  cases ht : s.trigger with
  | cpuCycle keys rnd => exact Or.inl (step_next_of_isCycle ⟨keys, rnd, ht⟩)
  | timerTick => exact Or.inl ⟨_, step_of_trigger ht⟩
  | reset => exact Or.inl ⟨_, step_of_trigger ht⟩
  | loadRom bytes =>
    have hstep : step s = finishStep (s.loadRom bytes) := step_of_trigger ht
    obtain ⟨hlate, he⟩ | ⟨-, -, -, he⟩ | ⟨-, -, -, he⟩ := s.loadRom_cases bytes <;> rw [he] at hstep
    · exact Or.inr ⟨hstep, ⟨bytes, rfl⟩, hlate⟩
    · exact Or.inl ⟨_, hstep⟩
    · exact Or.inl ⟨_, hstep⟩

/-- In Faulted a step that answers is a cycle that changes nothing, a tick or a reset: a load is refused (60 R212). -/
theorem step_of_faulted_cases {s t : State} {rec : FaultRecord} (hr : s.run = .faulted rec) (h : step s = .next t) :
    (isCycle s ∧ t = s.consume) ∨ (s.trigger = .timerTick ∧ t = s.timerTick.consume) ∨
      (s.trigger = .reset ∧ t = s.resetStep.consume) := by
  cases ht : s.trigger with
  | cpuCycle keys rnd =>
    have hc : isCycle s := ⟨keys, rnd, ht⟩
    exact Or.inl ⟨hc, Host.Outcome.next.inj (h.symm.trans ((cycleFollowsItsRunState s hc).1 rec hr))⟩
  | timerTick => exact Or.inr (Or.inl ⟨rfl, Host.Outcome.next.inj (h.symm.trans (step_of_trigger ht))⟩)
  | reset => exact Or.inr (Or.inr ⟨rfl, Host.Outcome.next.inj (h.symm.trans (step_of_trigger ht))⟩)
  | loadRom bytes =>
    have hstep : step s = finishStep (s.loadRom bytes) := step_of_trigger ht
    have hfaulted : s.isFaulted = true := (isFaulted_iff s).2 ⟨rec, hr⟩
    obtain ⟨-, he⟩ | ⟨-, hf, -⟩ | ⟨-, hf, -⟩ := s.loadRom_cases bytes
    · rw [hstep, he] at h
      cases h
    · simp [hfaulted] at hf
    · simp [hfaulted] at hf

theorem changesOnly_withDriver (s : State) (pending : List Trigger) (steps : Nat) :
    changesOnly [.driver] s (withDriver s pending steps) :=
  fun f hf => by cases f <;> simp_all [Field.same, State.getV, State.readByte, withDriver]

/-- Settles O20, by the steps that answer in Faulted. -/
theorem onlyResetLeavesFaulted : Obligations.OnlyResetLeavesFaulted := by
  intro s t rec hr h
  obtain ⟨⟨keys, rnd, ht⟩, rfl⟩ | ⟨ht, rfl⟩ | ⟨ht, rfl⟩ := step_of_faulted_cases hr h
  · exact ⟨fun _ => hr, fun _ => changesOnly_consume s, fun hreset => by simp [ht] at hreset⟩
  · exact ⟨fun _ => hr, fun ⟨_, _, hc⟩ => by simp [ht] at hc, fun hreset => by simp [ht] at hreset⟩
  · exact ⟨fun hne => absurd ht hne, fun ⟨_, _, hc⟩ => by simp [ht] at hc,
      fun _ => ⟨rfl, changesOnly_withDriver State.reset _ _⟩⟩

/-! ### The timer tick -/

theorem changesOnly_timerTick (s : State) : changesOnly [.dt, .st] s s.timerTick :=
  changesOnly_trans (changesOnly_setDt s _) (changesOnly_setSt _ _)

theorem timerTick_iterate (s : State) (n : Nat) :
    ((State.timerTick^[n]) s).dt.toNat = s.dt.toNat - n ∧ ((State.timerTick^[n]) s).st.toNat = s.st.toNat - n := by
  induction n with
  | zero => exact ⟨rfl, rfl⟩
  | succ n ih =>
    obtain ⟨hdt, hst⟩ := ih
    rw [Function.iterate_succ_apply', State.timerTick_dt, State.timerTick_st, tickDown_toNat, tickDown_toNat, hdt, hst]
    exact ⟨rfl, rfl⟩

/-- Settles O21: one tick by its step, n ticks by induction. -/
theorem timerTickCountsDownToZero : Obligations.TimerTickCountsDownToZero :=
  ⟨fun s ht => ⟨_, step_of_trigger ht, tickDown_toNat s.dt, tickDown_toNat s.st,
    changesOnly_trans (changesOnly_timerTick s) (changesOnly_consume _)⟩, timerTick_iterate⟩

end Sys2Proof.Machine
end

section
/-! Reset, load_rom and the end of a run (70 R230 to R235, R241). -/

namespace Sys2Proof.Machine

open Sys2Proof.Spec

/-! ### Reset and load_rom -/

/-- Settles O9: the reset step is the reset state with the driver's queue and counter. -/
theorem resetFromAnyState : Obligations.ResetFromAnyState :=
  fun _ ht => ⟨_, step_of_trigger ht, changesOnly_withDriver State.reset _ _, rfl⟩

/-- A load moves the boot order on and takes its trigger off the queue, and both are the driver's. -/
theorem changesOnly_setPhase_consume {s t : State} {fs : List Field} (h : changesOnly fs s t) (p : Phase) :
    changesOnly (fs ++ [.driver]) s (t.setPhase p).consume :=
  changesOnly_narrow (changesOnly_trans (changesOnly_trans h (changesOnly_setPhase t p)) (changesOnly_consume _))
    fun f hf hg => absurd hf (by simpa using hg)

/-- Settles O10: the two loads that are not refused, told apart by the length. -/
theorem loadRomIsAllOrNothing : Obligations.LoadRomIsAllOrNothing := by
  intro s bytes ht hphase hfaulted hm
  have hstep : step s = finishStep (s.loadRom bytes) := step_of_trigger ht
  obtain ⟨hlate, -⟩ | ⟨-, -, hlong, he⟩ | ⟨-, -, hfits, he⟩ := s.loadRom_cases bytes
  · simp [hphase, hfaulted] at hlate
  · rw [he, finishStep_next] at hstep
    exact ⟨_, hstep, fun _ => ⟨rfl, changesOnly_setPhase_consume (changesOnly_setRun s _) .loaded⟩,
      fun hfits => absurd hlong (Nat.not_lt.2 hfits)⟩
  · rw [he, finishStep_next] at hstep
    have hend : 0x200 + bytes.length ≤ Config.memSize := Nat.add_le_add_left hfits 0x200
    exact ⟨_, hstep, fun hlong => absurd hlong (Nat.not_lt.2 hfits),
      fun _ => ⟨changesOnly_setPhase_consume (changesOnly_setMem s _) .loaded,
        fun _ ha => Memory.read_writeList_outside s.mem ha, fun _ hk => Memory.read_writeList_inside hm hend hk⟩⟩

/-! ### The boot order -/

/-- No instruction is the driver's: each writes within its entries or takes a fault. -/
theorem exec_phase {i : Instr} {s t : State} (h : exec i s = .next t) : t.phase = s.phase := by
  have hsame : Field.driver.same s t := by
    obtain ⟨hwrites, -, -⟩ | ⟨-, hrun⟩ := instructionsWriteOnlyTheirTableEntries i s t h
    · exact hwrites .driver (by cases i <;> simp [writes])
    · exact hrun .driver (by simp)
  exact hsame.2.1

theorem State.runWord_phase {s t : State} {op : Word} (h : s.runWord op = .next t) : t.phase = s.phase := by
  cases hd : decodeWord op with
  | ok i => exact exec_phase ((s.runWord_of_ok hd).symm.trans h)
  | error e =>
    obtain rfl := Host.Outcome.next.inj (h.symm.trans (s.runWord_of_error hd))
    rfl

theorem State.poll_phase (s : State) (r : Reg) : (s.poll r).phase = s.phase := by
  obtain ⟨k, -, hp⟩ | ⟨-, hp⟩ := s.poll_cases r <;> rw [hp]
  rfl

/-- After a Running cycle the boot order is at started. -/
theorem step_phase_of_running {s t : State} (hc : isCycle s) (hr : s.run = .running) (h : step s = .next t) :
    t.phase = .started := by
  by_cases hpc : s.pc.toNat ≤ 0xFFE
  · rw [step_of_fetchable hc hr hpc] at h
    obtain ⟨t', ht', rfl⟩ := finishStep_eq_next h
    exact State.runWord_phase ht'
  · obtain rfl := Host.Outcome.next.inj (h.symm.trans (step_of_not_fetchable hc hr (Nat.not_le.1 hpc)))
    rfl

/-- A cycle that is not in Running leaves the boot order where it stands. -/
theorem step_phase_of_not_running {s t : State} (hc : isCycle s) (hr : s.run ≠ .running) (h : step s = .next t) :
    t.phase = s.phase := by
  obtain ⟨hfaulted, hwait, -⟩ := cycleFollowsItsRunState s hc
  cases hrun : s.run with
  | running => exact absurd hrun hr
  | awaitingKey r =>
    obtain rfl := Host.Outcome.next.inj (h.symm.trans (hwait r hrun))
    exact s.poll_phase r
  | faulted rec =>
    obtain rfl := Host.Outcome.next.inj (h.symm.trans (hfaulted rec hrun))
    rfl

/-- A load that answers a next state, RomTooLarge or not, is the one load of the boot order. -/
theorem State.loadRom_phase {s t : State} {bytes : List Byte} (h : s.loadRom bytes = .next t) :
    t.phase = .loaded := by
  obtain ⟨-, he⟩ | ⟨-, -, -, he⟩ | ⟨-, -, -, he⟩ := s.loadRom_cases bytes <;> rw [he] at h
  · cases h
  all_goals
    obtain rfl := Host.Outcome.next.inj h
    rfl

/-- What a step does to the boot order: a reset begins it, a load and a Running cycle move it on, and every other step
leaves it where it stands (70 R233). -/
theorem step_phase_cases {s t : State} (h : step s = .next t) :
    (s.trigger = .reset ∧ t.phase = .fresh) ∨ ((∃ bytes, s.trigger = .loadRom bytes) ∧ t.phase = .loaded) ∨
      (isCycle s ∧ s.run = .running ∧ t.phase = .started) ∨
      ((∀ bytes, s.trigger ≠ .loadRom bytes) ∧ ¬ (isCycle s ∧ s.run = .running) ∧ t.phase = s.phase) := by
  obtain ⟨s', hs', rfl⟩ := (step_next_iff s t).1 h
  cases ht : s.trigger with
  | cpuCycle keys rnd =>
    have hc : isCycle s := ⟨keys, rnd, ht⟩
    by_cases hr : s.run = .running
    · exact Or.inr (Or.inr (Or.inl ⟨hc, hr, step_phase_of_running hc hr h⟩))
    · exact Or.inr (Or.inr (Or.inr ⟨by simp, fun hrun => hr hrun.2, step_phase_of_not_running hc hr h⟩))
  | timerTick =>
    rw [ht] at hs'
    obtain rfl := Host.Outcome.next.inj hs'
    exact Or.inr (Or.inr (Or.inr ⟨by simp, fun ⟨⟨_, _, hc⟩, _⟩ => by simp [ht] at hc, rfl⟩))
  | reset =>
    rw [ht] at hs'
    obtain rfl := Host.Outcome.next.inj hs'
    exact Or.inl ⟨rfl, rfl⟩
  | loadRom bytes =>
    rw [ht] at hs'
    exact Or.inr (Or.inl ⟨⟨bytes, rfl⟩, State.loadRom_phase (t := s') hs'⟩)

/-- Settles O11: a load that is not refused finds the boot order fresh, and of the things a step can do to it only a
reset begins it anew. -/
theorem lateLoadRomIsRefused : Obligations.LateLoadRomIsRefused := by
  refine ⟨fun s bytes ht hlate => ?_, fun s t h hbegun hreset => ?_⟩
  · have hstep : step s = finishStep (s.loadRom bytes) := step_of_trigger ht
    obtain ⟨-, he⟩ | ⟨hphase, hfaulted, -⟩ | ⟨hphase, hfaulted, -⟩ := s.loadRom_cases bytes
    · rw [hstep, he]
      rfl
    all_goals simp [hphase, hfaulted] at hlate
  · obtain ⟨ht, -⟩ | ⟨-, hp⟩ | ⟨-, -, hp⟩ | ⟨hload, hrun, hp⟩ := step_phase_cases h
    · exact absurd ht hreset
    · simp [hp]
    · simp [hp]
    · obtain hphase | ⟨bytes, ht⟩ | hr := hbegun
      · exact hp ▸ hphase
      · exact absurd ht (hload bytes)
      · exact absurd hr hrun

/-! ### The end of a run -/

theorem endedNormally_iff (s : State) (e : Addr) :
    s.endedNormally e = true ↔ s.run = .running ∧ s.pc = immAddr e ∧ e.toNat ≤ 0xFFE ∧
      wordOfBytes (s.readByte e.toNat) (s.readByte (e.toNat + 1)) = 0x1000#16 + immAddr e := by
  simp [State.endedNormally, and_assoc]

/-- The end of a run is told by the machine's fields alone. -/
theorem endedNormally_of_changesOnly_driver {s t : State} {e : Addr} (h : changesOnly [.driver] s t)
    (hs : s.endedNormally e = true) : t.endedNormally e = true := by
  have hrun : t.run = s.run := h .run (by simp)
  have hpc : t.pc = s.pc := h .pc (by simp)
  have hmem : ∀ a, t.readByte a = s.readByte a := h .mem (by simp)
  rw [endedNormally_iff] at hs ⊢
  rwa [hrun, hpc, hmem, hmem]

/-- The word of a jump is its group and its address added. -/
theorem encode_jpNnn_eq_add (nnn : Addr) : encode (.jpNnn nnn) = 0x1000#16 + immAddr nnn := by
  have hdisjoint : 0x1000 ||| nnn.toNat = 0x1000 + nnn.toNat :=
    (Nat.two_pow_add_eq_or_of_lt (i := 12) nnn.isLt 1).symm
  refine BitVec.eq_of_toNat_eq ((BitVec.toNat_append 0x1#4 nnn).trans (hdisjoint.trans ?_))
  rw [BitVec.toNat_add, toNat_immAddr]
  exact (Nat.mod_eq_of_lt (by have := nnn.isLt; omega)).symm

/-- The cycle of an ended run is its jump: the pc advanced, then set back. -/
theorem step_of_endedNormally {s : State} {e : Addr} (h : s.endedNormally e = true) (hc : isCycle s) :
    step s = .next ((atExecute s).setPc s.pc).consume := by
  obtain ⟨hrun, hpc, he, hword⟩ := (endedNormally_iff s e).1 h
  have haddr : s.pc.toNat = e.toNat := by rw [hpc, toNat_immAddr]
  have hd : decodeWord (wordAtPc s) = .ok (.jpNnn e) := by
    rw [wordAtPc, haddr, hword, ← encode_jpNnn_eq_add, decodeWord_encode]
  rw [step_of_fetchable hc hrun (haddr ▸ he), State.runWord_of_ok _ hd, hpc]
  rfl

/-- Settles O54: the jump puts pc back to where it was, so the cycle changes the driver's fields alone. -/
theorem endedRunStays : Obligations.EndedRunStays := by
  intro s e h hc
  have hall : changesOnly [.driver, .pc, .pc, .driver] s ((atExecute s).setPc s.pc).consume :=
    changesOnly_trans (changesOnly_trans (changesOnly_atExecute s) (changesOnly_setPc _ _)) (changesOnly_consume _)
  have hsame : changesOnly [.driver] s ((atExecute s).setPc s.pc).consume :=
    changesOnly_narrow hall fun f hf hg => by
      obtain rfl : f = .pc := by simpa [show f ≠ .driver by simpa using hg] using hf
      rfl
  exact ⟨_, step_of_endedNormally h hc, hsame, endedNormally_of_changesOnly_driver hsame h⟩

end Sys2Proof.Machine
end
